-- ==== Sys2Proof/Word.lean ====
section
/-! DEFINITION. The word types of base64_codec_core (00_scope.md R7, R8): every value is an unsigned
integer of a stated width, and bit 0 is the least significant bit. -/

namespace Sys2Proof

/-- A data byte, a symbol byte, an output byte (00_scope.md R7). -/
abbrev Byte := BitVec 8

/-- A command word or a response word, `CMD_W` = `RSP_W` = 16 (00_scope.md R7). -/
abbrev Word := BitVec 16

/-- A 6-bit symbol value 0..63, `SYMBOL_BITS` = 6 (00_scope.md R7). -/
abbrev Sym := BitVec 6

end Sys2Proof
end

