-- ==== Sys2Proof/Syntax.lean ====
section
/-! DEFINITION. The commands of base64_codec_core: one constructor per row of the opcode map
(30_encoding.md R72). The alphabet bit `U` is `false` for standard and `true` for URL-safe (R71). -/

namespace Sys2Proof

/-- A command with its operand fields, each at exactly the width 30_encoding.md R71 gives it. Every
field value is legal (R71), so every term of this type is a well-formed command. -/
inductive Instr
  /-- NOP (44_control.md R170). -/
  | nop
  /-- ENC_START U (42_encoder.md R122). -/
  | encStart (u : Bool)
  /-- ENC_BYTE D8 (42_encoder.md R123). -/
  | encByte (d8 : Byte)
  /-- ENC_FINAL (42_encoder.md R124). -/
  | encFinal
  /-- DEC_START U (43_decoder.md R150). -/
  | decStart (u : Bool)
  /-- DEC_SYM D8 (43_decoder.md R151). -/
  | decSym (d8 : Byte)
  /-- LUT_FWD U, IX (41_alphabet_lut.md R104). -/
  | lutFwd (u : Bool) (ix : Sym)
  /-- LUT_REV U, D8 (41_alphabet_lut.md R105). -/
  | lutRev (u : Bool) (d8 : Byte)
  /-- RD_STAT SEL (44_control.md R171). -/
  | rdStat (sel : BitVec 2)
  deriving DecidableEq, Repr

end Sys2Proof
end

