-- ==== Sys2Proof/WellFormed.lean ====
section
/-! DEFINITION. Well-formedness. A command as a term of `Instr` is well formed by its type: each operand
has exactly the width of its field and every field value is legal (30_encoding.md R71). What can be ill
formed is a 16-bit word, and this file says which words are legal straight from the field table of
30_encoding.md R70 and the list of R74, without the masks of R72 that the decoder uses. -/

namespace Sys2Proof.CmdWord

/-- `OP`, bits 15:12 (30_encoding.md R70). -/
def op (w : Word) : BitVec 4 := w.extractLsb' 12 4

/-- The opcode is one of 0x0..0x8 (30_encoding.md R74(a)). -/
def opcodeAssigned (w : Word) : Bool := decide (op w ≤ 8)

/-- Bits 11:9 are 0 (30_encoding.md R70: reserved, must be 0). -/
def reservedZero (w : Word) : Bool := w.extractLsb' 9 3 == 0

/-- The opcodes whose row uses `U`: ENC_START, DEC_START, LUT_FWD, LUT_REV (30_encoding.md R70). -/
def usesU (o : BitVec 4) : Bool := o == 1 || o == 4 || o == 6 || o == 7

/-- Bit 8 is 0 where the row does not use `U` (30_encoding.md R70: must be 0 in all others). -/
def alphabetBitLegal (w : Word) : Bool := usesU (op w) || !w.getLsbD 8

/-- The bits of 7:0 that the row gives to an operand: all eight for ENC_BYTE, DEC_SYM and LUT_REV, bits
5:0 for LUT_FWD, bits 1:0 for RD_STAT, none for the others (30_encoding.md R70). -/
def operandMask (o : BitVec 4) : Byte :=
  if o == 2 || o == 5 || o == 7 then 0xFF
  else if o == 6 then 0x3F
  else if o == 8 then 0x03
  else 0x00

/-- Every bit of 7:0 that is no operand bit of the row is 0 (30_encoding.md R70, R74(b)). -/
def lowByteLegal (w : Word) : Bool := (w.extractLsb' 0 8 &&& ~~~ operandMask (op w)) == 0

/-- The word is a legal command word: none of the grounds of 30_encoding.md R74 applies. -/
def legal (w : Word) : Bool :=
  opcodeAssigned w && reservedZero w && alphabetBitLegal w && lowByteLegal w

end Sys2Proof.CmdWord
end

