-- ==== Sys2Proof/Decode.lean ====
section
/-! DEFINITION. Decoding a 16-bit command word, total and by the rows of the opcode map (30_encoding.md
R71 to R74), and after it the encoder, written from the same field layout (R70). -/

namespace Sys2Proof

/-- `U = cmd[8]` (30_encoding.md R71). -/
def fieldU (w : Word) : Bool := w.getLsbD 8

/-- `D8 = cmd[7:0]` (30_encoding.md R71). -/
def fieldD8 (w : Word) : Byte := w.extractLsb' 0 8

/-- `IX = cmd[5:0]` (30_encoding.md R71). -/
def fieldIX (w : Word) : Sym := w.extractLsb' 0 6

/-- `SEL = cmd[1:0]` (30_encoding.md R71). -/
def fieldSEL (w : Word) : BitVec 2 := w.extractLsb' 0 2

/-- One row of the opcode map: a word matches it when `(cmd & mask) = pattern`, and `build` reads the
operand fields (30_encoding.md R72). -/
structure OpcodeRow where
  mask : Word
  pattern : Word
  build : Word → Instr

/-- The opcode map, in OP order (30_encoding.md R72). -/
def opcodeRows : List OpcodeRow :=
  [ ⟨0xFFFF, 0x0000, fun _ => .nop⟩,
    ⟨0xFEFF, 0x1000, fun w => .encStart (fieldU w)⟩,
    ⟨0xFF00, 0x2000, fun w => .encByte (fieldD8 w)⟩,
    ⟨0xFFFF, 0x3000, fun _ => .encFinal⟩,
    ⟨0xFEFF, 0x4000, fun w => .decStart (fieldU w)⟩,
    ⟨0xFF00, 0x5000, fun w => .decSym (fieldD8 w)⟩,
    ⟨0xFEC0, 0x6000, fun w => .lutFwd (fieldU w) (fieldIX w)⟩,
    ⟨0xFE00, 0x7000, fun w => .lutRev (fieldU w) (fieldD8 w)⟩,
    ⟨0xFFFC, 0x8000, fun w => .rdStat (fieldSEL w)⟩ ]

/-- What a word decodes as: a command with its fields, or ILLEGAL (30_encoding.md R73). -/
inductive Decoded
  /-- The word matches a row of the opcode map. -/
  | command (i : Instr)
  /-- Every other word; presenting it raises ILL (60_exceptions.md R182). -/
  | illegal
  deriving DecidableEq, Repr

/-- The first row the word matches decides; without one the word is ILLEGAL (30_encoding.md R73). -/
def decodeRows : List OpcodeRow → Word → Decoded
  | [], _ => .illegal
  | r :: rs, w => if w &&& r.mask = r.pattern then .command (r.build w) else decodeRows rs w

/-- `decode(cmd)`: total, and independent of any state (30_encoding.md R73). -/
def decode (w : Word) : Decoded := decodeRows opcodeRows w

/-- A word from its fields: OP in 15:12, 0 in 11:9, `U` in 8, the low byte in 7:0 (30_encoding.md R70). -/
def wordOf (op : BitVec 4) (u : Bool) (low : Byte) : Word :=
  op ++ (0 : BitVec 3) ++ BitVec.ofBool u ++ low

/-- The word of a command (30_encoding.md R70 and the encoding column of R72). -/
def encode : Instr → Word
  | .nop => wordOf 0x0 false 0
  | .encStart u => wordOf 0x1 u 0
  | .encByte d8 => wordOf 0x2 false d8
  | .encFinal => wordOf 0x3 false 0
  | .decStart u => wordOf 0x4 u 0
  | .decSym d8 => wordOf 0x5 false d8
  | .lutFwd u ix => wordOf 0x6 u (ix.setWidth 8)
  | .lutRev u d8 => wordOf 0x7 u d8
  | .rdStat sel => wordOf 0x8 false (sel.setWidth 8)

/-- The command an opcode-table word stands for. Every row is one 16-bit word (30_encoding.md R70), and
the word moves as a parallel 16-bit value (20_memory.md R53), so no byte order enters. -/
def decodeTableWord (nbits w : Nat) : Option Instr :=
  match decode (BitVec.ofNat 16 (w % 2 ^ nbits)) with
  | .command i => some i
  | .illegal => none

end Sys2Proof
end

