-- ==== Sys2Proof/Config.lean ====
section
/-! DEFINITION. The implementation parameters of 00_scope.md R7. None is left open there, so none is a
free value here. `CMD_W`, `RSP_W`, `SYMBOL_BITS`, the carry widths and `LINE_W` are the widths of the types
`Word`, `Sym`, `Byte` and of `ENC.LINE`; the phase sets are the types `EncPhase` and `DecPhase`; the alphabets
and engines are those of Machine/Alphabet.lean and Machine/State.lean. -/

namespace Sys2Proof.Config

/-- `LINE_WIDTH`: symbol-or-padding bytes per line, standard alphabet only (00_scope.md R7). -/
def lineWidth : BitVec 6 := 60

/-- `NEWLINE`: the byte 10 (00_scope.md R7). -/
def newline : Byte := 10

/-- `PAD`: the byte 61, the character `=` (00_scope.md R7). -/
def pad : Byte := 61

end Sys2Proof.Config
end

