-- ==== Sys2Proof/Machine/Alphabet.lean ====
section
/-! DEFINITION. The alphabet_lut sub-block: the two read-only tables FWD and REV with their address spaces
(20_memory.md R50, 41_alphabet_lut.md R100, R101). They are constants: nothing writes them (20_memory.md R51), so
they are no part of State. -/

namespace Sys2Proof.Machine

/-- `FWD[u][i]` in the closed form of 41_alphabet_lut.md R100 (the entries come from general knowledge by the
spec's own mark, log 11). -/
def fwdEntry (u : Bool) (i : Sym) : Byte :=
  let n := i.toNat
  if n ≤ 25 then BitVec.ofNat 8 (0x41 + n)
  else if n ≤ 51 then BitVec.ofNat 8 (0x61 + (n - 26))
  else if n ≤ 61 then BitVec.ofNat 8 (0x30 + (n - 52))
  else if n = 62 then (if u then 0x2D else 0x2B)
  else (if u then 0x5F else 0x2F)

/-- A `REV` entry is 7 bits `{NF, IDX[5:0]}` (41_alphabet_lut.md R101). -/
def revFound (idx : Sym) : BitVec 7 := (0 : BitVec 1) ++ idx

/-- The entry of a byte outside the alphabet: `NF = 1`, `IDX = 0` (41_alphabet_lut.md R101). -/
def revNotFound : BitVec 7 := (1 : BitVec 1) ++ (0 : Sym)

/-- `REV[u][x]` in the closed form of 41_alphabet_lut.md R101: only the selected alphabet is recognized. -/
def revEntry (u : Bool) (x : Byte) : BitVec 7 :=
  let n := x.toNat
  if 0x41 ≤ n ∧ n ≤ 0x5A then revFound (BitVec.ofNat 6 (n - 0x41))
  else if 0x61 ≤ n ∧ n ≤ 0x7A then revFound (BitVec.ofNat 6 (n - 0x61 + 26))
  else if 0x30 ≤ n ∧ n ≤ 0x39 then revFound (BitVec.ofNat 6 (n - 0x30 + 52))
  else if n = 0x2B ∧ u = false then revFound 62
  else if n = 0x2F ∧ u = false then revFound 63
  else if n = 0x2D ∧ u = true then revFound 62
  else if n = 0x5F ∧ u = true then revFound 63
  else revNotFound

/-- The `NF` bit of a `REV` entry, bit 6 (41_alphabet_lut.md R101). -/
def revNF (e : BitVec 7) : Bool := e.getLsbD 6

/-- The `IDX` field of a `REV` entry, bits 5:0 (41_alphabet_lut.md R101). -/
def revIDX (e : BitVec 7) : Sym := e.extractLsb' 0 6

/-- The address `{u, i}` of the FWD space (20_memory.md R50). -/
def fwdAddr (u : Bool) (i : Sym) : BitVec 7 := BitVec.ofBool u ++ i

/-- The address `{u, x}` of the REV space (20_memory.md R50). -/
def revAddr (u : Bool) (x : Byte) : BitVec 9 := BitVec.ofBool u ++ x

/-- `MemRead(FWD, a, 1)`: every one of the 128 addresses is valid (20_memory.md R50, 00_scope.md R10). -/
def romFwd (a : BitVec 7) : Byte := fwdEntry (a.getLsbD 6) (a.extractLsb' 0 6)

/-- `MemRead(REV, a, 1)`: every one of the 512 addresses is valid (20_memory.md R50, 00_scope.md R10). -/
def romRev (a : BitVec 9) : BitVec 7 := revEntry (a.getLsbD 8) (a.extractLsb' 0 8)

end Sys2Proof.Machine
end

