-- ==== Sys2Proof/Machine/State.lean ====
section
/-! DEFINITION. The whole state of base64_codec_core (10_state.md), as plain data, and its reset. -/

namespace Sys2Proof.Machine

/-- `ENC.STATE`, the encoder's life cycle (10_state.md R23): 0 IDLE, 1 ACTIVE, 2 DONE; 3 is never reached
(DEDUCED from R40, log 6). -/
inductive EncState
  | idle
  | active
  | done
  deriving DecidableEq, Repr

/-- `ENC.PHASE`, the number of bytes of the current group already consumed (10_state.md R25): 0, 1 or 2; 3 is
never reached (DEDUCED from R40, log 6). -/
inductive EncPhase
  | zero
  | one
  | two
  deriving DecidableEq, Repr

/-- `DEC.STATE` (10_state.md R28): 0 IDLE, 1 ACTIVE. -/
inductive DecState
  | idle
  | active
  deriving DecidableEq, Repr

/-- `DEC.PHASE` (10_state.md R30): 0, 2, 4 or 6; odd values are never reached (DEDUCED from R40, log 6). -/
inductive DecPhase
  | zero
  | two
  | four
  | six
  deriving DecidableEq, Repr

/-- The encoder engine's registers `ENC.*` (10_state.md R23 to R27). -/
structure Enc where
  /-- `ENC.STATE` (R23). -/
  state : EncState
  /-- `ENC.URL`: `false` standard, `true` URL-safe (R24). -/
  url : Bool
  /-- `ENC.PHASE` (R25). -/
  phase : EncPhase
  /-- `ENC.CARRY` (R26). -/
  carry : Byte
  /-- `ENC.LINE` (R27). -/
  line : BitVec 6
  deriving DecidableEq, Repr

/-- The decoder engine's registers `DEC.*` (10_state.md R28 to R31). -/
structure Dec where
  /-- `DEC.STATE` (R28). -/
  state : DecState
  /-- `DEC.URL`: `false` standard, `true` URL-safe (R29). -/
  url : Bool
  /-- `DEC.PHASE` (R30). -/
  phase : DecPhase
  /-- `DEC.CARRY` (R31). -/
  carry : Byte
  deriving DecidableEq, Repr

/-- The sticky fault flags `ERR.*` (10_state.md R32). -/
structure Err where
  /-- `ERR.ILL` (60_exceptions.md R182). -/
  ill : Bool
  /-- `ERR.SEQ_ENC` (60_exceptions.md R183). -/
  seqEnc : Bool
  /-- `ERR.SEQ_DEC` (60_exceptions.md R184). -/
  seqDec : Bool
  deriving DecidableEq, Repr

/-- What the host does to the block's inputs: it presents a command word on `cmd_i`, or requests a reset on
`rst_i` between two commands (10_state.md R38, 70_reset_and_hazards.md R200; log 1). -/
inductive HostEvent
  | command (w : Word)
  | reset
  deriving DecidableEq, Repr

/-- The state of the machine: the registers of 10_state.md R23 to R32 and the port streams of R38 and R39. -/
structure State where
  /-- The encoder engine. -/
  enc : Enc
  /-- The decoder engine. -/
  dec : Dec
  /-- The sticky fault flags. -/
  err : Err
  /-- `enc_o`: every byte emitted so far, oldest first (10_state.md R39). -/
  encO : List Byte
  /-- `dec_o`: every byte emitted so far, oldest first (10_state.md R39). -/
  decO : List Byte
  /-- `rsp_o`: every response so far, oldest first (10_state.md R39). -/
  rspO : List Word
  /-- What the host has presented on `cmd_i` and `rst_i` and the block has not yet taken, in the host's order
  (20_memory.md R56; DESIGN CHOICE, log 1). -/
  hostIn : List HostEvent
  deriving DecidableEq, Repr

/-- The three protocol faults (60_exceptions.md R182 to R184). A fault is precise and the block goes on: `raise`
(Machine/Ops.lean) records it in `State.err` and the step answers a NEXT state (R181). So no step of this model
ends with one of these as its outcome; safe, since nothing the block does is cut off (log 4). -/
inductive Fault
  /-- ILL: raised by a word that decodes as ILLEGAL (R182). Recorded, never an outcome: safe. -/
  | ill
  /-- SEQ_ENC: raised by ENC_BYTE and ENC_FINAL while the encoder is not ACTIVE (R183). Recorded, never an
  outcome: safe. -/
  | seqEnc
  /-- SEQ_DEC: raised by DEC_SYM while the decoder is not ACTIVE (R184). Recorded, never an outcome: safe. -/
  | seqDec
  deriving DecidableEq, Repr

/-- Reasons for which the model gives an instruction no meaning. -/
inductive Refusal
  /-- The instruction of that opcode-table mnemonic has no meaning yet. Raised by no arm of this model; safe. -/
  | notModelled (mnemonic : String)
  deriving DecidableEq, Repr

/-- The outcome of a step or of a command. -/
abbrev Result := Host.Outcome State Fault Refusal

/-- The encoder's reset values (10_state.md R41). -/
def Enc.reset : Enc := { state := .idle, url := false, phase := .zero, carry := 0x00, line := 0 }

/-- The decoder's reset values (10_state.md R41). -/
def Dec.reset : Dec := { state := .idle, url := false, phase := .zero, carry := 0x00 }

/-- The fault flags' reset values (10_state.md R41). -/
def Err.reset : Err := { ill := false, seqEnc := false, seqDec := false }

/-- The machine at power-on, which is the reset state (10_state.md R41, 70_reset_and_hazards.md R200). Nothing
has been emitted and the host has presented nothing (DESIGN CHOICE, log 8). -/
def State.reset : State :=
  { enc := Enc.reset, dec := Dec.reset, err := Err.reset, encO := [], decO := [], rspO := [], hostIn := [] }

end Sys2Proof.Machine
end

