-- ==== Sys2Proof/Machine/Operands.lean ====
section
/-! DEFINITION. The bit slices of the two engines' data paths: how a byte or a symbol is cut and joined with a
carry, most significant bits first (20_memory.md R52, 42_encoder.md R123, 43_decoder.md R151), and the phases as
numbers and as register bits (10_state.md R23, R25, R28, R30). -/

namespace Sys2Proof.Machine

/-- `ENC.STATE` as its 2-bit field (10_state.md R23). -/
def EncState.bits : EncState → BitVec 2
  | .idle => 0
  | .active => 1
  | .done => 2

/-- `ENC.PHASE` as its 2-bit field (10_state.md R25). -/
def EncPhase.bits : EncPhase → BitVec 2
  | .zero => 0
  | .one => 1
  | .two => 2

/-- `DEC.STATE` as its 1-bit field (10_state.md R28). -/
def DecState.bits : DecState → BitVec 1
  | .idle => 0
  | .active => 1

/-- `DEC.PHASE` as a number (10_state.md R30). -/
def DecPhase.toNat : DecPhase → Nat
  | .zero => 0
  | .two => 2
  | .four => 4
  | .six => 6

/-- `DEC.PHASE` as its 3-bit field (10_state.md R30). -/
def DecPhase.bits (p : DecPhase) : BitVec 3 := BitVec.ofNat 3 p.toNat

/-- `(p + 2) mod 8`: the cycle 0, 2, 4, 6, 0 (10_state.md R30, 43_decoder.md R151). -/
def DecPhase.next : DecPhase → DecPhase
  | .zero => .two
  | .two => .four
  | .four => .six
  | .six => .zero

/-- `b[7:2]`: the symbol a byte gives at phase 0 (42_encoder.md R123). -/
def symAtZero (b : Byte) : Sym := b.extractLsb' 2 6

/-- `zext_8(b[1:0]) << 4`: the carry a byte leaves at phase 0 (42_encoder.md R123). -/
def carryAtZero (b : Byte) : Byte := (b.extractLsb' 0 2).setWidth 8 <<< 4

/-- `ENC.CARRY[5:0] | zext_6(b[7:4])`: the symbol at phase 1 (42_encoder.md R123). -/
def symAtOne (carry b : Byte) : Sym := carry.extractLsb' 0 6 ||| (b.extractLsb' 4 4).setWidth 6

/-- `zext_8(b[3:0]) << 2`: the carry a byte leaves at phase 1 (42_encoder.md R123). -/
def carryAtOne (b : Byte) : Byte := (b.extractLsb' 0 4).setWidth 8 <<< 2

/-- `ENC.CARRY[5:0] | zext_6(b[7:6])`: the first symbol at phase 2 (42_encoder.md R123). -/
def symAtTwo (carry b : Byte) : Sym := carry.extractLsb' 0 6 ||| (b.extractLsb' 6 2).setWidth 6

/-- `b[5:0]`: the second symbol at phase 2 (42_encoder.md R123). -/
def symLast (b : Byte) : Sym := b.extractLsb' 0 6

/-- `ENC.CARRY[5:0]`: the symbol that ENC_FINAL flushes (42_encoder.md R124). -/
def symFlush (carry : Byte) : Sym := carry.extractLsb' 0 6

/-- `DEC.CARRY | zext_8(c >> (6 - p))`: the byte that the top p bits of the symbol complete (43_decoder.md R151). -/
def decByte (carry : Byte) (p : DecPhase) (c : Sym) : Byte := carry ||| (c >>> (6 - p.toNat)).setWidth 8

/-- The carry at the new phase p': 0 at phase 0, else `(zext_8(c) << p') & 0xFF` (43_decoder.md R151). -/
def decCarry (p' : DecPhase) (c : Sym) : Byte :=
  if p' = .zero then 0x00 else c.setWidth 8 <<< p'.toNat

end Sys2Proof.Machine
end

