-- ==== Sys2Proof/Machine/Flags.lean ====
section
/-! DEFINITION. The fault flags (10_state.md R32, 60_exceptions.md R186), the four status registers (10_state.md
R34 to R37) and the STAT space they form (20_memory.md R50). The block has no condition codes (10_state.md R33). -/

namespace Sys2Proof.Machine

/-- The flags with the flag of one fault set (60_exceptions.md R181): the others keep their values. -/
def Err.set (e : Err) : Fault → Err
  | .ill => { e with ill := true }
  | .seqEnc => { e with seqEnc := true }
  | .seqDec => { e with seqDec := true }

/-- The flag of one fault (60_exceptions.md R185, the table's ERR_STATUS bits). -/
def Err.flag (e : Err) : Fault → Bool
  | .ill => e.ill
  | .seqEnc => e.seqEnc
  | .seqDec => e.seqDec

/-- The output level `err_o` is `ERR.ILL | ERR.SEQ_ENC | ERR.SEQ_DEC` (60_exceptions.md R186; computed, log 5). -/
def errO (s : State) : Bool := s.err.ill || s.err.seqEnc || s.err.seqDec

/-- `ENC_STATUS = {3'b000, ENC.STATE, ENC.URL, ENC.PHASE, ENC.CARRY}` (10_state.md R34). -/
def encStatus (s : State) : Word :=
  (0 : BitVec 3) ++ s.enc.state.bits ++ BitVec.ofBool s.enc.url ++ s.enc.phase.bits ++ s.enc.carry

/-- `ENC_LINE = zext_16(ENC.LINE)` (10_state.md R35). -/
def encLine (s : State) : Word := s.enc.line.setWidth 16

/-- `DEC_STATUS = {3'b000, DEC.STATE, DEC.URL, DEC.PHASE, DEC.CARRY}` (10_state.md R36). -/
def decStatus (s : State) : Word :=
  (0 : BitVec 3) ++ s.dec.state.bits ++ BitVec.ofBool s.dec.url ++ s.dec.phase.bits ++ s.dec.carry

/-- `ERR_STATUS = {13'b0, ERR.SEQ_DEC, ERR.SEQ_ENC, ERR.ILL}` (10_state.md R37). -/
def errStatus (s : State) : Word :=
  (0 : BitVec 13) ++ BitVec.ofBool s.err.seqDec ++ BitVec.ofBool s.err.seqEnc ++ BitVec.ofBool s.err.ill

/-- The STAT space: the status register at a 2-bit select; every select is valid and a read has no side effect
(20_memory.md R50, 44_control.md R171). -/
def statRead (sel : BitVec 2) (s : State) : Word :=
  match sel with
  | 0#2 => encStatus s
  | 1#2 => encLine s
  | 2#2 => decStatus s
  | 3#2 => errStatus s

end Sys2Proof.Machine
end

