-- ==== Sys2Proof/Machine/Ops.lean ====
section
/-! DEFINITION. The operations the meanings share: the register writes `ENGINE.FIELD <- v` (00_scope.md R9), the
emits and the response (R10), the character-emit step with its line wrap (42_encoder.md R121), raising a fault
(60_exceptions.md R181) and, beside it, reset (70_reset_and_hazards.md R200), which is the nearest thing to a
return the block has (60_exceptions.md R187). -/

namespace Sys2Proof.Machine

/-- `ENC.STATE <- v`. -/
def State.setEncState (v : EncState) (s : State) : State := { s with enc := { s.enc with state := v } }

/-- `ENC.URL <- v`. -/
def State.setEncUrl (v : Bool) (s : State) : State := { s with enc := { s.enc with url := v } }

/-- `ENC.PHASE <- v`. -/
def State.setEncPhase (v : EncPhase) (s : State) : State := { s with enc := { s.enc with phase := v } }

/-- `ENC.CARRY <- v`. -/
def State.setEncCarry (v : Byte) (s : State) : State := { s with enc := { s.enc with carry := v } }

/-- `ENC.LINE <- v`. -/
def State.setEncLine (v : BitVec 6) (s : State) : State := { s with enc := { s.enc with line := v } }

/-- `DEC.STATE <- v`. -/
def State.setDecState (v : DecState) (s : State) : State := { s with dec := { s.dec with state := v } }

/-- `DEC.URL <- v`. -/
def State.setDecUrl (v : Bool) (s : State) : State := { s with dec := { s.dec with url := v } }

/-- `DEC.PHASE <- v`. -/
def State.setDecPhase (v : DecPhase) (s : State) : State := { s with dec := { s.dec with phase := v } }

/-- `DEC.CARRY <- v`. -/
def State.setDecCarry (v : Byte) (s : State) : State := { s with dec := { s.dec with carry := v } }

/-- The host's inputs become `v`. -/
def State.setHostIn (v : List HostEvent) (s : State) : State := { s with hostIn := v }

/-- `emit_enc(b)`: appends a byte to `enc_o` (00_scope.md R10). -/
def emitEnc (b : Byte) (s : State) : State := { s with encO := s.encO ++ [b] }

/-- `emit_dec(b)`: appends a byte to `dec_o` (00_scope.md R10). -/
def emitDec (b : Byte) (s : State) : State := { s with decO := s.decO ++ [b] }

/-- `respond(w)`: appends a word to `rsp_o` (00_scope.md R10). -/
def respond (w : Word) (s : State) : State := { s with rspO := s.rspO ++ [w] }

/-- `raise F()`: sets the sticky flag `ERR.F` and makes no other change (60_exceptions.md R181). -/
def raise (f : Fault) (s : State) : State := { s with err := s.err.set f }

/-- Reset: every register gets its reset value; nothing already emitted is taken back and nothing is flushed
(70_reset_and_hazards.md R200, 10_state.md R41). What the host has presented behind the reset stays presented
(DESIGN CHOICE, log 3). -/
def applyReset (s : State) : State := { s with enc := Enc.reset, dec := Dec.reset, err := Err.reset }

/-- The first lines of `emit_char`: in the standard alphabet, a full line is ended by a newline before the next
character (42_encoder.md R121). -/
def wrapLine (s : State) : State :=
  if s.enc.url = false ∧ s.enc.line = Config.lineWidth then
    (emitEnc Config.newline s).setEncLine 0
  else s

/-- The last lines of `emit_char`: in the standard alphabet, the character just emitted is counted (42_encoder.md
R121). The sum is cut to the register's 6 bits (00_scope.md R8), which no reachable state shows (log 7). -/
def countChar (s : State) : State :=
  if s.enc.url = false then s.setEncLine (s.enc.line + 1) else s

/-- `emit_char(ch)` (42_encoder.md R121). -/
def emitChar (ch : Byte) (s : State) : State := countChar (emitEnc ch (wrapLine s))

/-- `emit_sym(i)` (42_encoder.md R121). -/
def emitSym (i : Sym) (s : State) : State := emitChar (romFwd (fwdAddr s.enc.url i)) s

/-- A word that decodes as ILLEGAL raises ILL and has no other effect (60_exceptions.md R182, 30_encoding.md R74). -/
def presentIllegal (s : State) : State := raise .ill s

/-- The next input event, with the state in which it has been taken from the port: commands are taken one at a
time in the order presented (20_memory.md R56). -/
def takeInput (s : State) : Option (HostEvent × State) :=
  match s.hostIn with
  | [] => none
  | e :: rest => some (e, s.setHostIn rest)

/-- A step with nothing presented: the block waits for the next command (70_reset_and_hazards.md R201), so nothing
changes (DESIGN CHOICE, log 2). -/
def wait (s : State) : State := s

end Sys2Proof.Machine
end

