-- ==== Sys2Proof/Machine/Control.lean ====
section
/-! DEFINITION. The control and status commands (44_control.md). -/

namespace Sys2Proof.Machine

/-- NOP: nothing, in every state (44_control.md R170). -/
def execNop (s : State) : Result := .next s

/-- RD_STAT: responds with the selected status register, and changes nothing else (44_control.md R171). -/
def execRdStat (sel : BitVec 2) (s : State) : Result := .next (respond (statRead sel s) s)

end Sys2Proof.Machine
end

