-- ==== Sys2Proof/Machine/Decoder.lean ====
section
/-! DEFINITION. The decoder commands (base64_decoder_fsm, 43_decoder.md). -/

namespace Sys2Proof.Machine

/-- DEC_START: opens a decode stream, in any state of the decoder; leftover bits are dropped (43_decoder.md R150). -/
def execDecStart (u : Bool) (s : State) : Result :=
  .next (s |>.setDecUrl u |>.setDecPhase .zero |>.setDecCarry 0x00 |>.setDecState .active)

/-- A recognized symbol c in an open stream: at phases 2, 4 and 6 it completes a byte; the phase advances and the
carry takes the symbol's remaining bits (43_decoder.md R151). -/
def decodeSymbol (c : Sym) (s : State) : State :=
  let p := s.dec.phase
  let s1 := if p = .zero then s else emitDec (decByte s.dec.carry p c) s
  s1 |>.setDecPhase p.next |>.setDecCarry (decCarry p.next c)

/-- One input byte in an open stream: a byte the alphabet does not contain is skipped (43_decoder.md R151). -/
def decodeByte (x : Byte) (s : State) : State :=
  let e := romRev (revAddr s.dec.url x)
  if revNF e then s else decodeSymbol (revIDX e) s

/-- DEC_SYM: consumes one symbol byte; outside ACTIVE it raises SEQ_DEC (43_decoder.md R151, 60_exceptions.md
R184). -/
def execDecSym (d8 : Byte) (s : State) : Result :=
  if s.dec.state = .active then .next (decodeByte d8 s) else .next (raise .seqDec s)

end Sys2Proof.Machine
end

