-- ==== Sys2Proof/Machine/Encoder.lean ====
section
/-! DEFINITION. The encoder commands (base64_encoder_fsm, 42_encoder.md). -/

namespace Sys2Proof.Machine

/-- ENC_START: opens an encode stream, in any state of the encoder; an open stream is abandoned without output
(42_encoder.md R122). -/
def execEncStart (u : Bool) (s : State) : Result :=
  .next (s |>.setEncUrl u |>.setEncPhase .zero |>.setEncCarry 0x00 |>.setEncLine 0 |>.setEncState .active)

/-- The three cases of ENC_BYTE in an open stream (42_encoder.md R123). -/
def encodeByte (b : Byte) (s : State) : State :=
  match s.enc.phase with
  | .zero => emitSym (symAtZero b) s |>.setEncCarry (carryAtZero b) |>.setEncPhase .one
  | .one => emitSym (symAtOne s.enc.carry b) s |>.setEncCarry (carryAtOne b) |>.setEncPhase .two
  | .two => emitSym (symLast b) (emitSym (symAtTwo s.enc.carry b) s) |>.setEncCarry 0x00 |>.setEncPhase .zero

/-- ENC_BYTE: consumes one input byte; outside ACTIVE it raises SEQ_ENC (42_encoder.md R123, 60_exceptions.md
R183). -/
def execEncByte (d8 : Byte) (s : State) : Result :=
  if s.enc.state = .active then .next (encodeByte d8 s) else .next (raise .seqEnc s)

/-- `if ENC.URL = 0: emit_char(61)` (42_encoder.md R124). -/
def emitPad (s : State) : State := if s.enc.url = false then emitChar Config.pad s else s

/-- The three cases of ENC_FINAL in an open stream (42_encoder.md R124). -/
def flushGroup (s : State) : State :=
  match s.enc.phase with
  | .zero => s
  | .one => emitPad (emitPad (emitSym (symFlush s.enc.carry) s))
  | .two => emitPad (emitSym (symFlush s.enc.carry) s)

/-- ENC_FINAL: flushes the partial group, pads, ends the stream; outside ACTIVE it raises SEQ_ENC (42_encoder.md
R124, 60_exceptions.md R183). -/
def execEncFinal (s : State) : Result :=
  if s.enc.state = .active then
    .next (flushGroup s |>.setEncCarry 0x00 |>.setEncPhase .zero |>.setEncState .done)
  else .next (raise .seqEnc s)

end Sys2Proof.Machine
end

