-- ==== Sys2Proof/Machine/Lut.lean ====
section
/-! DEFINITION. The table query commands of alphabet_lut (41_alphabet_lut.md). -/

namespace Sys2Proof.Machine

/-- LUT_FWD: responds with `zext_16(FWD[U][IX])` (41_alphabet_lut.md R104). -/
def execLutFwd (u : Bool) (ix : Sym) (s : State) : Result :=
  .next (respond ((romFwd (fwdAddr u ix)).setWidth 16) s)

/-- LUT_REV: responds with `zext_16({NF, IDX})` (41_alphabet_lut.md R105). -/
def execLutRev (u : Bool) (d8 : Byte) (s : State) : Result :=
  .next (respond ((romRev (revAddr u d8)).setWidth 16) s)

end Sys2Proof.Machine
end

