-- ==== Sys2Proof/Machine/Dispatch.lean ====
section
/-! DEFINITION. One arm per command: each calls its meaning. -/

namespace Sys2Proof.Machine

/-- The effect of one legal command (30_encoding.md R72). -/
def exec (i : Instr) (s : State) : Host.Outcome State Fault Refusal :=
  match i with
  | .nop => Sys2Proof.Machine.execNop s
  | .encStart u => Sys2Proof.Machine.execEncStart u s
  | .encByte d8 => Sys2Proof.Machine.execEncByte d8 s
  | .encFinal => Sys2Proof.Machine.execEncFinal s
  | .decStart u => Sys2Proof.Machine.execDecStart u s
  | .decSym d8 => Sys2Proof.Machine.execDecSym d8 s
  | .lutFwd u ix => Sys2Proof.Machine.execLutFwd u ix s
  | .lutRev u d8 => Sys2Proof.Machine.execLutRev u d8 s
  | .rdStat sel => Sys2Proof.Machine.execRdStat sel s

end Sys2Proof.Machine
end

