-- ==== Sys2Proof/Machine/Step.lean ====
section
/-! DEFINITION. One step of the machine: the block takes the next event the host presents and performs it
atomically (00_scope.md R3, 20_memory.md R56, 70_reset_and_hazards.md R200). -/

namespace Sys2Proof.Machine

/-- One step. Nothing presented: the block waits. A reset request: every register gets its reset value. A command
word: the command it decodes as takes effect, and an ILLEGAL word raises ILL. -/
def step (s : State) : Host.Outcome State Fault Refusal :=
  match takeInput s with
  | none => .next (wait s)
  | some (.reset, s') => .next (applyReset s')
  | some (.command w, s') =>
    match decode w with
    | .command i => exec i s'
    | .illegal => .next (presentIllegal s')

/-- The state with one more command word presented in front of all that is presented already, so that the very
next step takes exactly it (log 9 says how a program comes to run from reset). -/
def State.withFetchWord (s : State) (nbits w : Nat) : State :=
  s.setHostIn (.command (BitVec.ofNat 16 (w % 2 ^ nbits)) :: s.hostIn)

end Sys2Proof.Machine
end

