-- ==== Sys2Proof/Machine/Pseudo.lean ====
section
/-! DEFINITION. The pseudo-commands ENCODE and DECODE (30_encoding.md R77) and the host's duties that they spell,
chunk by chunk (70_reset_and_hazards.md R204, R205). -/

namespace Sys2Proof.Machine

/-- `ENCODE std|url, [b0, …]`: ENC_START, one ENC_BYTE per byte in order, ENC_FINAL (30_encoding.md R77). -/
def encodeStream (u : Bool) (bytes : List Byte) : List Instr :=
  .encStart u :: (bytes.map Instr.encByte ++ [.encFinal])

/-- `DECODE std|url, [s0, …]`: DEC_START, one DEC_SYM per byte in order (30_encoding.md R77). -/
def decodeStream (u : Bool) (bytes : List Byte) : List Instr :=
  .decStart u :: bytes.map Instr.decSym

/-- The host's commands for `encode` of a stream handed over in chunks: `onChunk` is one ENC_BYTE per byte of the
chunk, `onEnd` is ENC_FINAL (70_reset_and_hazards.md R204, R205). -/
def encodeChunks (u : Bool) (chunks : List (List Byte)) : List Instr :=
  .encStart u :: (chunks.flatMap (fun c => c.map Instr.encByte) ++ [.encFinal])

/-- The host's commands for `decode` of a stream handed over in chunks (70_reset_and_hazards.md R204, R205). -/
def decodeChunks (u : Bool) (chunks : List (List Byte)) : List Instr :=
  .decStart u :: chunks.flatMap (fun c => c.map Instr.decSym)

/-- The events by which the host presents a list of commands on `cmd_i`, one word per command. -/
def presented (is : List Instr) : List HostEvent := is.map (fun i => .command (encode i))

end Sys2Proof.Machine
end

