-- ==== Sys2Proof/Machine/Assembler.lean ====
section
/-! DEFINITION. The assembler syntax (30_encoding.md R76) and the text of the pseudo-commands (R77), on one line
given as its characters. The details of the text that the rule leaves open are chosen here (DESIGN CHOICE, log 10).
The block itself never sees this text. -/

namespace Sys2Proof.Assembler

/-- What a line is made of: words, character literals, commas and the brackets of a byte list. -/
inductive Token
  | word (cs : List Char)
  | chr (c : Char)
  | comma
  | openList
  | closeList
  deriving DecidableEq, Repr

/-- The word read so far (kept in reverse), put in front of the tokens after it. -/
def flush (acc : List Char) (ts : List Token) : List Token :=
  if acc.isEmpty then ts else .word acc.reverse :: ts

/-- The tokens of a line: blanks separate, `;` starts a comment, `'c'` is a character literal (30_encoding.md R76). -/
def lex : List Char → List Char → List Token
  | [], acc => flush acc []
  | '\'' :: c :: '\'' :: rest, acc => flush acc (.chr c :: lex rest [])
  | c :: rest, acc =>
    if c = ';' then flush acc []
    else if c = ' ' ∨ c = '\t' then flush acc (lex rest [])
    else if c = ',' then flush acc (.comma :: lex rest [])
    else if c = '[' then flush acc (.openList :: lex rest [])
    else if c = ']' then flush acc (.closeList :: lex rest [])
    else lex rest (c :: acc)

/-- The decimal digits, each at the place of its value. -/
def decimalDigits : List Char := "0123456789".toList

/-- The digits from ten on, in capitals and in small letters, each at the place of its value less ten. -/
def letterDigits : List (List Char) := ["ABCDEF".toList, "abcdef".toList]

/-- The value of a decimal digit: its place among them. -/
def decDigit (c : Char) : Option Nat := decimalDigits.idxOf? c

/-- The value of a digit H of `0xHH` (30_encoding.md R76): a decimal digit, or a letter of either case (log 10). -/
def hexDigit (c : Char) : Option Nat :=
  (decDigit c).or ((letterDigits.findSome? (List.idxOf? c)).map (10 + ·))

/-- Decimal digits read on from a value. -/
def decimalFrom (n : Nat) : List Char → Option Nat
  | [] => some n
  | c :: cs => (decDigit c).bind (fun d => decimalFrom (10 * n + d) cs)

/-- A decimal number `N` of one or more digits (30_encoding.md R76). -/
def decimal : List Char → Option Nat
  | [] => none
  | cs => decimalFrom 0 cs

/-- A value below a bound, at the width of its field: an operand out of range is an assembly error (30_encoding.md
R76). -/
def inRange (w bound : Nat) (n : Nat) : Option (BitVec w) :=
  if n < bound then some (BitVec.ofNat w n) else none

/-- An alphabet operand: `std` is U = 0, `url` is U = 1 (30_encoding.md R76). -/
def alphabet : Token → Option Bool
  | .word cs => if cs = "std".toList then some false else if cs = "url".toList then some true else none
  | _ => none

/-- A byte operand: `0xHH`, decimal 0..255, or `'c'` (30_encoding.md R76). -/
def byte : Token → Option Byte
  | .word ['0', 'x', h, l] =>
    (hexDigit h).bind (fun a => (hexDigit l).bind (fun b => inRange 8 256 (16 * a + b)))
  | .word cs => (decimal cs).bind (inRange 8 256)
  | .chr c => inRange 8 128 c.toNat
  | _ => none

/-- A symbol index operand: decimal 0..63 (30_encoding.md R76). -/
def index : Token → Option Sym
  | .word cs => (decimal cs).bind (inRange 6 64)
  | _ => none

/-- A status operand: a register's name, or 0..3 (30_encoding.md R76). -/
def select : Token → Option (BitVec 2)
  | .word cs =>
    if cs = "ENC_STATUS".toList then some 0
    else if cs = "ENC_LINE".toList then some 1
    else if cs = "DEC_STATUS".toList then some 2
    else if cs = "ERR_STATUS".toList then some 3
    else (decimal cs).bind (inRange 2 4)
  | _ => none

/-- The command of a mnemonic without operands. -/
def plain (m : List Char) : Option Instr :=
  if m = "NOP".toList then some .nop
  else if m = "ENC_FINAL".toList then some .encFinal
  else none

/-- The command of a mnemonic with one operand. -/
def unary (m : List Char) (a : Token) : Option Instr :=
  if m = "ENC_START".toList then (alphabet a).map .encStart
  else if m = "ENC_BYTE".toList then (byte a).map .encByte
  else if m = "DEC_START".toList then (alphabet a).map .decStart
  else if m = "DEC_SYM".toList then (byte a).map .decSym
  else if m = "RD_STAT".toList then (select a).map .rdStat
  else none

/-- The command of a mnemonic with two operands. -/
def binary (m : List Char) (a b : Token) : Option Instr :=
  if m = "LUT_FWD".toList then (alphabet a).bind (fun u => (index b).map (.lutFwd u))
  else if m = "LUT_REV".toList then (alphabet a).bind (fun u => (byte b).map (.lutRev u))
  else none

/-- The rest of a byte list after one of its bytes: the closing bracket, or a comma and one more byte. -/
def bytesTail : List Token → Option (List Byte)
  | [.closeList] => some []
  | .comma :: t :: rest => (byte t).bind (fun b => (bytesTail rest).map (b :: ·))
  | _ => none

/-- A byte list `[b0, b1, …]`, from behind its opening bracket (30_encoding.md R77). -/
def bytes : List Token → Option (List Byte)
  | [.closeList] => some []
  | t :: rest => (byte t).bind (fun b => (bytesTail rest).map (b :: ·))
  | [] => none

/-- The commands of a pseudo-command with its alphabet and its bytes (30_encoding.md R77). -/
def pseudo (m : List Char) (u : Bool) (bs : List Byte) : Option (List Instr) :=
  if m = "ENCODE".toList then some (Machine.encodeStream u bs)
  else if m = "DECODE".toList then some (Machine.decodeStream u bs)
  else none

/-- The commands of one line; `none` is an assembly error (30_encoding.md R76, R77). -/
def commands : List Token → Option (List Instr)
  | [.word m] => (plain m).map ([·])
  | [.word m, a] => (unary m a).map ([·])
  | [.word m, a, .comma, b] => (binary m a b).map ([·])
  | .word m :: a :: .comma :: .openList :: rest =>
    (alphabet a).bind (fun u => (bytes rest).bind (pseudo m u))
  | _ => none

/-- The words one line assembles to: one for a command, several for a pseudo-command, and none (an assembly error)
for anything else (30_encoding.md R76, R77). -/
def assemble (line : List Char) : Option (List Word) :=
  (commands (lex line [])).map (List.map encode)

end Sys2Proof.Assembler
end

