-- ==== Sys2Proof/Reference.lean ====
section
/-! DEFINITION. The closed forms of 20_memory.md R52, 42_encoder.md R120 and R126 and 43_decoder.md R153, written
from those rules alone and without the machine: what statements about whole streams compare the machine with. -/

namespace Sys2Proof.Reference

/-- Exactly `n` words have the property: some list without repeats, of length `n`, holds just those words
(30_encoding.md R75 counts words). -/
def exactlyWords (n : Nat) (P : Word → Prop) : Prop :=
  ∃ ws : List Word, ws.Nodup ∧ ws.length = n ∧ ∀ w : Word, w ∈ ws ↔ P w

/-- The bits of a value, most significant first (20_memory.md R52). -/
def bits {w : Nat} (v : BitVec w) : List Bool := (List.range w).map (fun k => v.getMsbD k)

/-- The bit string of a sequence of values, each written most significant bit first (20_memory.md R52). -/
def bitString {w : Nat} (vs : List (BitVec w)) : List Bool := vs.flatMap bits

/-- The symbol values of a byte sequence: each whole group gives four, and a final group of one or two bytes gives
two or three with fill bits 0 (42_encoder.md R120). -/
def symbols : List Byte → List Sym
  | b0 :: b1 :: b2 :: rest =>
    b0.extractLsb' 2 6
      :: (b0.extractLsb' 0 2 ++ b1.extractLsb' 4 4)
      :: (b1.extractLsb' 0 4 ++ b2.extractLsb' 6 2)
      :: b2.extractLsb' 0 6
      :: symbols rest
  | [b0, b1] =>
    [b0.extractLsb' 2 6, b0.extractLsb' 0 2 ++ b1.extractLsb' 4 4, b1.extractLsb' 0 4 ++ (0 : BitVec 2)]
  | [b0] => [b0.extractLsb' 2 6, b0.extractLsb' 0 2 ++ (0 : BitVec 4)]
  | [] => []

/-- The padding bytes of a standard-alphabet stream of n bytes: two if n mod 3 = 1, one if n mod 3 = 2 (42_encoder.md
R126(b)). -/
def padding (n : Nat) : List Byte :=
  if n % 3 = 1 then [Config.pad, Config.pad] else if n % 3 = 2 then [Config.pad] else []

/-- A newline before character 60k for each k ≥ 1, counting characters from 0 (42_encoder.md R126(b)). -/
def wrapLines (chars : List Byte) : List Byte :=
  chars.zipIdx.flatMap (fun c => if c.2 ≠ 0 ∧ c.2 % 60 = 0 then [Config.newline, c.1] else [c.1])

/-- The whole output of an encode stream (42_encoder.md R126). -/
def encoded (u : Bool) (bytes : List Byte) : List Byte :=
  if u then (symbols bytes).map (Machine.fwdEntry true)
  else wrapLines ((symbols bytes).map (Machine.fwdEntry false) ++ padding bytes.length)

/-- What one symbol or padding byte adds to `enc_o` at a line count: the newline goes first when the standard
alphabet's line is full (42_encoder.md R121). -/
def charOut (u : Bool) (line : BitVec 6) (ch : Byte) : List Byte :=
  if u = false ∧ line = 60 then [10, ch] else [ch]

/-- The line count after one symbol or padding byte (42_encoder.md R121). -/
def lineAfter (u : Bool) (line : BitVec 6) : BitVec 6 :=
  if u then line else if line = 60 then 1 else line + 1

/-- A byte is a recognized symbol of alphabet u (41_alphabet_lut.md R102). -/
def recognized (u : Bool) (x : Byte) : Bool := !Machine.revNF (Machine.revEntry u x)

/-- The symbol values of the recognized bytes of a sequence, in order (43_decoder.md R153). -/
def recognizedSymbols (u : Bool) (bytes : List Byte) : List Sym :=
  (bytes.filter (recognized u)).map (fun x => Machine.revIDX (Machine.revEntry u x))

end Sys2Proof.Reference
end

