-- ==== Sys2Proof/Safety.lean ====
section
/-! DEFINITION. What statements about runs are said in: several steps in a row, what the host has presented, the
legal states of 10_state.md R40, and the reading of the fault flags of 60_exceptions.md R191. -/

namespace Sys2Proof.Machine

/-- `k` steps, ending early where a step answers no next state. -/
def steps : Nat → State → Result
  | 0, s => .next s
  | k + 1, s =>
    match step s with
    | .next t => steps k t
    | .fault f => .fault f
    | .refused r => .refused r

/-- The next things the host presents in `s` are the commands `is`, and after them `rest`. -/
def presents (s : State) (is : List Instr) (rest : List HostEvent) : Prop :=
  s.hostIn = presented is ++ rest

/-- No fault is recorded: the premise under which the host has used the block correctly (60_exceptions.md R191). -/
def noFaultRecorded (s : State) : Prop := errO s = false

/-- The contents `ENC.CARRY` may have at each phase (10_state.md R26). -/
def encCarryLegal (e : Enc) : Prop :=
  match e.phase with
  | .zero => e.carry = 0
  | .one => e.carry &&& 0xCF = 0
  | .two => e.carry &&& 0xC3 = 0

/-- The contents `ENC.LINE` may have (10_state.md R27). -/
def encLineLegal (e : Enc) : Prop := e.line ≤ 60 ∧ (e.url = true → e.line = 0)

/-- The contents `DEC.CARRY` may have at each phase: the top `(8 - p) mod 8` bits, and 0 at phase 0 (10_state.md
R31). -/
def decCarryLegal (d : Dec) : Prop :=
  match d.phase with
  | .zero => d.carry = 0
  | .two => d.carry &&& 0x03 = 0
  | .four => d.carry &&& 0x0F = 0
  | .six => d.carry &&& 0x3F = 0

/-- The well-formedness predicate of 10_state.md R40. That the phases and `ENC.STATE` stay among their legal values
holds by the types of the fields (log 6). -/
structure Legal (s : State) : Prop where
  encCarry : encCarryLegal s.enc
  encLine : encLineLegal s.enc
  decCarry : decCarryLegal s.dec

/-- The lock step of line and group behind 42_encoder.md R125: in the standard alphabet the characters on the line
are whole groups and the characters of the open group, since 60 is 4 × 15. -/
def GroupAligned (s : State) : Prop :=
  s.enc.url = false → s.enc.line.toNat % 4 = s.enc.phase.bits.toNat

/-- Engines outside a stream hold what 10_state.md R23, R25, R26, R28 and R41 give them: an IDLE engine its reset
values, a DONE encoder phase 0. -/
structure LifeCycle (s : State) : Prop where
  encIdle : s.enc.state = .idle → s.enc = Enc.reset
  encDone : s.enc.state = .done → s.enc.phase = .zero
  decIdle : s.dec.state = .idle → s.dec = Dec.reset

end Sys2Proof.Machine
end

