-- ==== Sys2Proof/Certificates/Slice0/Obligations.lean ====
section
/-! DEFINITION. The statements for the provers. Each docstring names the rule of spec/ it comes from. Steps are
taken on `State.hostIn`, the model's form of what the host presents (log 1). -/

open Sys2Proof Sys2Proof.Machine

/-! ## Encoding (30_encoding.md) -/

/-- 30_encoding.md R70, R72, R73: decoding the word of a command gives the command back, for every command with every
operand value. -/
def Obligations.DecodeOfEncodeIsTheCommand : Prop :=
  ∀ i : Instr, decode (encode i) = .command i

/-- 30_encoding.md R70, R73: each legal word has one meaning, and the word of that meaning is the word. -/
def Obligations.EncodeOfDecodedWordIsTheWord : Prop :=
  ∀ (w : Word) (i : Instr), decode w = .command i → encode i = w

/-- 30_encoding.md R73: a word decodes as a row's mnemonic, with the fields of R71, exactly when it matches the row's
mask and pattern of R72, and every other word is ILLEGAL and raises ILL when it is presented, in any state. -/
def Obligations.WordDecodesExactlyByItsRow : Prop :=
  ∀ w : Word,
    (decode w = .command .nop ↔ w &&& 0xFFFF = 0x0000) ∧
    (decode w = .command (.encStart (w.getLsbD 8)) ↔ w &&& 0xFEFF = 0x1000) ∧
    (decode w = .command (.encByte (w.extractLsb' 0 8)) ↔ w &&& 0xFF00 = 0x2000) ∧
    (decode w = .command .encFinal ↔ w &&& 0xFFFF = 0x3000) ∧
    (decode w = .command (.decStart (w.getLsbD 8)) ↔ w &&& 0xFEFF = 0x4000) ∧
    (decode w = .command (.decSym (w.extractLsb' 0 8)) ↔ w &&& 0xFF00 = 0x5000) ∧
    (decode w = .command (.lutFwd (w.getLsbD 8) (w.extractLsb' 0 6)) ↔ w &&& 0xFEC0 = 0x6000) ∧
    (decode w = .command (.lutRev (w.getLsbD 8) (w.extractLsb' 0 8)) ↔ w &&& 0xFE00 = 0x7000) ∧
    (decode w = .command (.rdStat (w.extractLsb' 0 2)) ↔ w &&& 0xFFFC = 0x8000) ∧
    (decode w = .illegal ↔
      ¬ (w &&& 0xFFFF = 0x0000 ∨ w &&& 0xFEFF = 0x1000 ∨ w &&& 0xFF00 = 0x2000 ∨ w &&& 0xFFFF = 0x3000 ∨
         w &&& 0xFEFF = 0x4000 ∨ w &&& 0xFF00 = 0x5000 ∨ w &&& 0xFEC0 = 0x6000 ∨ w &&& 0xFE00 = 0x7000 ∨
         w &&& 0xFFFC = 0x8000)) ∧
    (decode w = .illegal → ∀ (s : State) (rest : List HostEvent), s.hostIn = .command w :: rest →
      ∃ t, step s = .next t ∧ t.err.ill = true)

/-- 30_encoding.md R71: the operand fields of a decoded word are `cmd[8]`, `cmd[7:0]`, `cmd[5:0]` and `cmd[1:0]`, used
as they are. -/
def Obligations.OperandsAreTheWordsFields : Prop :=
  ∀ (w : Word) (i : Instr), decode w = .command i →
    match i with
    | .nop => True
    | .encStart u => u = w.getLsbD 8
    | .encByte d8 => d8.toNat = w.toNat % 256
    | .encFinal => True
    | .decStart u => u = w.getLsbD 8
    | .decSym d8 => d8.toNat = w.toNat % 256
    | .lutFwd u ix => u = w.getLsbD 8 ∧ ix.toNat = w.toNat % 64
    | .lutRev u d8 => u = w.getLsbD 8 ∧ d8.toNat = w.toNat % 256
    | .rdStat sel => sel.toNat = w.toNat % 4

/-- 30_encoding.md R70, R74: the words that decode as ILLEGAL are exactly those that the field table refuses: an
unassigned opcode, or a bit set that the opcode's row fixes at 0. -/
def Obligations.IllegalWordsAreThoseTheFieldTableRefuses : Prop :=
  ∀ w : Word, decode w = .illegal ↔ CmdWord.legal w = false

/-- 30_encoding.md R75: the number of legal words of each opcode, 1,162 in all, and 64,374 illegal words. -/
def Obligations.LegalWordCounts : Prop :=
  Reference.exactlyWords 1 (fun w => decode w = .command .nop) ∧
  Reference.exactlyWords 2 (fun w => ∃ u, decode w = .command (.encStart u)) ∧
  Reference.exactlyWords 256 (fun w => ∃ d, decode w = .command (.encByte d)) ∧
  Reference.exactlyWords 1 (fun w => decode w = .command .encFinal) ∧
  Reference.exactlyWords 2 (fun w => ∃ u, decode w = .command (.decStart u)) ∧
  Reference.exactlyWords 256 (fun w => ∃ d, decode w = .command (.decSym d)) ∧
  Reference.exactlyWords 128 (fun w => ∃ u ix, decode w = .command (.lutFwd u ix)) ∧
  Reference.exactlyWords 512 (fun w => ∃ u d, decode w = .command (.lutRev u d)) ∧
  Reference.exactlyWords 4 (fun w => ∃ sel, decode w = .command (.rdStat sel)) ∧
  Reference.exactlyWords 1162 (fun w => ∃ i, decode w = .command i) ∧
  Reference.exactlyWords 64374 (fun w => decode w = .illegal)

/-- 30_encoding.md R78: the worked encodings, at least one per row, read both ways, and the illegal word 0x2100. -/
def Obligations.WorkedEncodings : Prop :=
  (∀ p ∈ ([(.nop, 0x0000), (.encStart false, 0x1000), (.encStart true, 0x1100), (.encByte 0x4D, 0x204D),
      (.encFinal, 0x3000), (.decStart true, 0x4100), (.decSym 0x54, 0x5054), (.lutFwd true 62, 0x613E),
      (.lutRev false 0x2F, 0x702F), (.rdStat 3, 0x8003)] : List (Instr × Word)),
    encode p.1 = p.2 ∧ decode p.2 = .command p.1) ∧
  decode 0x2100 = .illegal

/-- 30_encoding.md R76, R77 (text details by the model's choice, log 10): whatever a line assembles to is legal words. A
missing or an extra operand is an assembly error: a line's tokens assemble only as one of the mnemonics with operands
in the one shape that mnemonic has. A number at or above its field's bound is an assembly error in every command and
every byte list, and a number below it is the operand. -/
def Obligations.AssembledWordsAreLegal : Prop :=
  (∀ (line : List Char) (ws : List Word), Assembler.assemble line = some ws → ∀ w ∈ ws, CmdWord.legal w = true) ∧
  (∀ (ts : List Assembler.Token) (is : List Instr), Assembler.commands ts = some is →
    ∃ (m : List Char) (operands : List Assembler.Token), ts = .word m :: operands ∧
      ((m ∈ ["NOP".toList, "ENC_FINAL".toList] ∧ operands = []) ∨
       (m ∈ ["ENC_START".toList, "ENC_BYTE".toList, "DEC_START".toList, "DEC_SYM".toList, "RD_STAT".toList] ∧
         ∃ a, operands = [a]) ∨
       (m ∈ ["LUT_FWD".toList, "LUT_REV".toList] ∧ ∃ a b, operands = [a, .comma, b]) ∨
       (m ∈ ["ENCODE".toList, "DECODE".toList] ∧ ∃ a rest, operands = a :: .comma :: .openList :: rest))) ∧
  (∀ (digits : List Char) (n : Nat), Assembler.decimal digits = some n →
    let number : Assembler.Token := .word digits
    (256 ≤ n →
      Assembler.commands [.word "ENC_BYTE".toList, number] = none ∧
      Assembler.commands [.word "DEC_SYM".toList, number] = none ∧
      (∀ a, Assembler.commands [.word "LUT_REV".toList, a, .comma, number] = none) ∧
      (∀ m a rest, number ∈ rest → Assembler.commands (.word m :: a :: .comma :: .openList :: rest) = none)) ∧
    (64 ≤ n → ∀ a, Assembler.commands [.word "LUT_FWD".toList, a, .comma, number] = none) ∧
    (4 ≤ n → Assembler.commands [.word "RD_STAT".toList, number] = none) ∧
    (n < 256 →
      Assembler.commands [.word "ENC_BYTE".toList, number] = some [.encByte (BitVec.ofNat 8 n)] ∧
      Assembler.commands [.word "DEC_SYM".toList, number] = some [.decSym (BitVec.ofNat 8 n)] ∧
      Assembler.commands [.word "LUT_REV".toList, .word "std".toList, .comma, number] =
        some [.lutRev false (BitVec.ofNat 8 n)]) ∧
    (n < 64 → Assembler.commands [.word "LUT_FWD".toList, .word "url".toList, .comma, number] =
      some [.lutFwd true (BitVec.ofNat 6 n)]) ∧
    (n < 4 → Assembler.commands [.word "RD_STAT".toList, number] = some [.rdStat (BitVec.ofNat 2 n)])) ∧
  Assembler.assemble "LUT_FWD url, 62".toList = some [0x613E] ∧
  Assembler.assemble "DEC_SYM 'T' ; one symbol".toList = some [0x5054] ∧
  Assembler.assemble "ENCODE std, [0x4D, 97, 'n']".toList = some [0x1000, 0x204D, 0x2061, 0x206E, 0x3000] ∧
  Assembler.assemble "ENC_BYTE 256".toList = none ∧
  Assembler.assemble "LUT_FWD std, 64".toList = none ∧
  Assembler.assemble "ENC_BYTE".toList = none ∧
  Assembler.assemble "NOP 0".toList = none

/-! ## Steps, faults and reset (20_memory.md, 60_exceptions.md, 70_reset_and_hazards.md) -/

/-- 20_memory.md R56: when the next word the host presents decodes to a command, a step is that command's effect on
the state in which the word has been taken. -/
def Obligations.StepRunsTheDecodedCommand : Prop :=
  ∀ (s : State) (w : Word) (rest : List HostEvent) (i : Instr),
    s.hostIn = .command w :: rest → decode w = .command i →
      step s = exec i { s with hostIn := rest }

/-- 20_memory.md R56, by the model's form of presenting a word (log 9): with the word of a command presented in front,
the very next step is that command's effect on the state as it was before the word was presented. -/
def Obligations.FetchedWordOfACommandRunsIt : Prop :=
  ∀ (s : State) (i : Instr), step (s.withFetchWord 16 (encode i).toNat) = exec i s

/-- 60_exceptions.md R182: a word that decodes as ILLEGAL, that is one with an unassigned opcode or a nonzero reserved
bit, sets ERR.ILL, bit 0 of ERR_STATUS, and has no other effect; the word is not kept. That the events behind it stay
presented is the model's form (log 1). -/
def Obligations.IllegalWordSetsOnlyIll : Prop :=
  ∀ (s : State) (w : Word) (rest : List HostEvent),
    s.hostIn = .command w :: rest → (decode w = .illegal ∨ CmdWord.legal w = false) →
      step s = .next { s with hostIn := rest, err := { s.err with ill := true } } ∧
      errStatus { s with hostIn := rest, err := { s.err with ill := true } } = errStatus s ||| 1

/-- 60_exceptions.md R183: ENC_BYTE and ENC_FINAL outside ACTIVE set ERR.SEQ_ENC, bit 1 of ERR_STATUS, and change
nothing else: a DONE encoder stays DONE. -/
def Obligations.EncoderCommandOutOfSequenceSetsOnlySeqEnc : Prop :=
  ∀ (s : State) (i : Instr), s.enc.state ≠ .active → (i = .encFinal ∨ ∃ b, i = .encByte b) →
    exec i s = .next { s with err := { s.err with seqEnc := true } } ∧
    errStatus { s with err := { s.err with seqEnc := true } } = errStatus s ||| 2

/-- 60_exceptions.md R184: DEC_SYM outside ACTIVE sets ERR.SEQ_DEC, bit 2 of ERR_STATUS, and changes nothing else. -/
def Obligations.DecoderSymbolOutOfSequenceSetsOnlySeqDec : Prop :=
  ∀ (s : State) (x : Byte), s.dec.state ≠ .active →
    exec (.decSym x) s = .next { s with err := { s.err with seqDec := true } } ∧
    errStatus { s with err := { s.err with seqDec := true } } = errStatus s ||| 4

/-- 60_exceptions.md R185: an illegal word raises ILL only; a legal word raises at most one of SEQ_ENC and SEQ_DEC, each
by a command of its own engine that is not ACTIVE. -/
def Obligations.AtMostOneFaultPerCommand : Prop :=
  ∀ (s t : State) (w : Word) (rest : List HostEvent),
    s.hostIn = .command w :: rest → step s = .next t →
      (CmdWord.legal w = false → t.err = { s.err with ill := true }) ∧
      (CmdWord.legal w = true → t.err.ill = s.err.ill) ∧
      (t.err.seqEnc = s.err.seqEnc ∨ t.err.seqDec = s.err.seqDec) ∧
      (t.err.seqEnc ≠ s.err.seqEnc → (CmdWord.op w = 2 ∨ CmdWord.op w = 3) ∧ s.enc.state ≠ .active) ∧
      (t.err.seqDec ≠ s.err.seqDec → CmdWord.op w = 5 ∧ s.dec.state ≠ .active)

/-- 10_state.md R32: no command clears a fault flag. -/
def Obligations.NoCommandClearsAFlag : Prop :=
  ∀ (s t : State) (w : Word) (rest : List HostEvent) (f : Fault),
    s.hostIn = .command w :: rest → step s = .next t → s.err.flag f = true → t.err.flag f = true

/-- 60_exceptions.md R186: err_o is the OR of the flags; it stays high through every command, and reset lowers it. -/
def Obligations.ErrOutputIsTheStickyOrOfTheFlags : Prop :=
  (∀ s : State, errO s = (s.err.ill || s.err.seqEnc || s.err.seqDec)) ∧
  (∀ (s t : State) (w : Word) (rest : List HostEvent),
    s.hostIn = .command w :: rest → step s = .next t → errO s = true → errO t = true) ∧
  (∀ (s t : State) (rest : List HostEvent), s.hostIn = .reset :: rest → step s = .next t → errO t = false)

/-- 60_exceptions.md R191: in a run without a reset request, no fault recorded at the end means that none was recorded at
any point of it. -/
def Obligations.NoFaultAtTheEndMeansNoFaultAnywhere : Prop :=
  ∀ (k j : Nat) (s t v : State), HostEvent.reset ∉ s.hostIn.take k → j ≤ k →
    steps k s = .next t → steps j s = .next v → noFaultRecorded t → noFaultRecorded v

/-- 60_exceptions.md R180: no input data byte causes a fault: in an open stream ENC_BYTE and DEC_SYM leave the flags as
they are for every byte, an unrecognized byte is skipped, and the table queries fault in no state. -/
def Obligations.NoDataByteCausesAFault : Prop :=
  ∀ (s : State) (x : Byte),
    (s.enc.state = .active → ∃ t, exec (.encByte x) s = .next t ∧ t.err = s.err) ∧
    (s.dec.state = .active → ∃ t, exec (.decSym x) s = .next t ∧ t.err = s.err) ∧
    (s.dec.state = .active → (∀ i : Sym, fwdEntry s.dec.url i ≠ x) → exec (.decSym x) s = .next s) ∧
    (∀ (u : Bool) (ix : Sym), ∃ t, exec (.lutFwd u ix) s = .next t ∧ t.err = s.err) ∧
    (∀ u : Bool, ∃ t, exec (.lutRev u x) s = .next t ∧ t.err = s.err)

/-- 60_exceptions.md R181, R189 for a command, 70_reset_and_hazards.md R200 for a reset request, and by the model's choice
the rest: a step with nothing presented waits (log 2), and every presented word is accepted at once (log 9, unsafe for
claims about progress of a real block): whatever is presented, a step of the model answers a next state. -/
def Obligations.EveryStepAnswersANextState : Prop :=
  ∀ s : State, ∃ t, step s = .next t

/-- 70_reset_and_hazards.md R201, by the model's choice (log 2): with nothing presented the block waits and nothing
changes. -/
def Obligations.StepWithNothingPresentedWaits : Prop :=
  ∀ s : State, s.hostIn = [] → step s = .next s

/-- 20_memory.md R56, by the model's choice of form (logs 1, 2, 3): a step takes exactly the first presented event and
leaves the others presented. -/
def Obligations.StepTakesExactlyOneEvent : Prop :=
  ∀ s t : State, step s = .next t → t.hostIn = s.hostIn.tail

/-- 70_reset_and_hazards.md R200: a reset request puts every register at its reset value and err_o at 0, takes back
nothing from the output streams and emits nothing; at power-on the block is in the reset state. -/
def Obligations.ResetRequestRestoresEveryRegister : Prop :=
  (∀ (s : State) (rest : List HostEvent), s.hostIn = .reset :: rest →
    ∃ t, step s = .next t ∧
      t.enc = State.reset.enc ∧ t.dec = State.reset.dec ∧ t.err = State.reset.err ∧ errO t = false ∧
      t.encO = s.encO ∧ t.decO = s.decO ∧ t.rspO = s.rspO) ∧
  Sys2Proof.core.reset = State.reset

/-- 10_state.md R41: the reset value of every register, of the four status registers and of err_o. -/
def Obligations.ResetStateValues : Prop :=
  State.reset.enc = { state := .idle, url := false, phase := .zero, carry := 0x00, line := 0 } ∧
  State.reset.dec = { state := .idle, url := false, phase := .zero, carry := 0x00 } ∧
  State.reset.err = { ill := false, seqEnc := false, seqDec := false } ∧
  errO State.reset = false ∧
  (∀ sel : BitVec 2, statRead sel State.reset = 0x0000) ∧
  (∀ s : State, (applyReset s).encO = s.encO ∧ (applyReset s).decO = s.decO ∧ (applyReset s).rspO = s.rspO)

/-- 70_reset_and_hazards.md R202: the engine's state after its START is its reset state but for ACTIVE and the
alphabet, and the flags are untouched. -/
def Obligations.StartIsResetButForActiveAndAlphabet : Prop :=
  ∀ (s : State) (u : Bool),
    (∃ t, exec (.encStart u) s = .next t ∧ t.enc = { State.reset.enc with state := .active, url := u } ∧
      t.dec = s.dec ∧ t.err = s.err) ∧
    (∃ t, exec (.decStart u) s = .next t ∧ t.dec = { State.reset.dec with state := .active, url := u } ∧
      t.enc = s.enc ∧ t.err = s.err)

/-! ## Invariants and whole-machine rules (10_state.md, 20_memory.md) -/

/-- 10_state.md R40, R41, 42_encoder.md R125: the reset state is legal, aligned and in life cycle. -/
def Obligations.ResetStateMeetsTheInvariants : Prop :=
  Legal State.reset ∧ GroupAligned State.reset ∧ LifeCycle State.reset

/-- 10_state.md R26, R27, R31, R40: every step from a legal state leads to a legal state. -/
def Obligations.EveryStepKeepsLegalStates : Prop :=
  ∀ s t : State, Legal s → step s = .next t → Legal t

/-- 10_state.md R40: in every state reachable from reset, whatever the host presents, the phases, the carries, the line
count and the life-cycle field have their legal values. -/
def Obligations.ReachableStatesAreLegal : Prop :=
  ∀ (inputs : List HostEvent) (k : Nat) (t : State),
    steps k { State.reset with hostIn := inputs } = .next t →
      (t.enc.phase.bits = 0 ∨ t.enc.phase.bits = 1 ∨ t.enc.phase.bits = 2) ∧
      (t.dec.phase.bits = 0 ∨ t.dec.phase.bits = 2 ∨ t.dec.phase.bits = 4 ∨ t.dec.phase.bits = 6) ∧
      t.enc.state.bits ≠ 3 ∧
      encCarryLegal t.enc ∧ encLineLegal t.enc ∧ decCarryLegal t.dec

/-- 42_encoder.md R125: every step keeps the line count in lock step with the groups, from any aligned state. -/
def Obligations.EveryStepKeepsLineAndGroupAligned : Prop :=
  ∀ s t : State, GroupAligned s → step s = .next t → GroupAligned t

/-- 10_state.md R23, R28, 42_encoder.md R124: every step keeps an IDLE engine at its reset values and a DONE encoder at
phase 0. -/
def Obligations.EveryStepKeepsTheLifeCycle : Prop :=
  ∀ s t : State, LifeCycle s → step s = .next t → LifeCycle t

/-- 10_state.md R23: a step changes ENC.STATE only by ENC_START, which sets ACTIVE, by ENC_FINAL, which sets DONE, and
by reset, which sets IDLE. -/
def Obligations.OnlyStartFinalAndResetWriteEncoderState : Prop :=
  ∀ s t : State, step s = .next t → t.enc.state ≠ s.enc.state →
    (∃ w rest u, s.hostIn = .command w :: rest ∧ decode w = .command (.encStart u) ∧ t.enc.state = .active) ∨
    (∃ w rest, s.hostIn = .command w :: rest ∧ decode w = .command .encFinal ∧ t.enc.state = .done) ∨
    (∃ rest, s.hostIn = .reset :: rest ∧ t.enc.state = .idle)

/-- 10_state.md R24, R29: ENC_START copies its U to ENC.URL and DEC_START copies its U to DEC.URL, reset clears both,
and no other command writes either. -/
def Obligations.OnlyStartAndResetWriteTheAlphabets : Prop :=
  (∀ (s : State) (u : Bool), ∃ t, exec (.encStart u) s = .next t ∧ t.enc.url = u ∧ t.dec.url = s.dec.url) ∧
  (∀ (s : State) (u : Bool), ∃ t, exec (.decStart u) s = .next t ∧ t.dec.url = u ∧ t.enc.url = s.enc.url) ∧
  (∀ s : State, (applyReset s).enc.url = false ∧ (applyReset s).dec.url = false) ∧
  (∀ (s t : State) (i : Instr), exec i s = .next t →
    ((∀ u, i ≠ .encStart u) → t.enc.url = s.enc.url) ∧ ((∀ u, i ≠ .decStart u) → t.dec.url = s.dec.url))

/-- 10_state.md R39: the output streams are growing sequences: no step, reset included, takes an item back. -/
def Obligations.OutputStreamsOnlyGrow : Prop :=
  ∀ s t : State, step s = .next t →
    ∃ (a b : List Byte) (c : List Word), t.encO = s.encO ++ a ∧ t.decO = s.decO ++ b ∧ t.rspO = s.rspO ++ c

/-- 20_memory.md R55: how many items each command emits: ENC_BYTE 1 to 3 bytes and ENC_FINAL 0 to 3 on enc_o in an open
stream of a legal aligned state, DEC_SYM 0 or 1 byte on dec_o, the queries one response, and nothing on the other streams. -/
def Obligations.EmitCountsPerCommand : Prop :=
  ∀ s : State,
    (s.enc.state = .active → Legal s → GroupAligned s → ∀ b : Byte, ∃ t out, exec (.encByte b) s = .next t ∧
      t.encO = s.encO ++ out ∧ 1 ≤ out.length ∧ out.length ≤ 3 ∧ t.decO = s.decO ∧ t.rspO = s.rspO) ∧
    (s.enc.state = .active → Legal s → GroupAligned s → ∃ t out, exec .encFinal s = .next t ∧
      t.encO = s.encO ++ out ∧ out.length ≤ 3 ∧ t.decO = s.decO ∧ t.rspO = s.rspO) ∧
    (s.dec.state = .active → ∀ x : Byte, ∃ t out, exec (.decSym x) s = .next t ∧
      t.decO = s.decO ++ out ∧ out.length ≤ 1 ∧ t.encO = s.encO ∧ t.rspO = s.rspO) ∧
    (∀ i : Instr, ((∃ u ix, i = .lutFwd u ix) ∨ (∃ u x, i = .lutRev u x) ∨ (∃ sel, i = .rdStat sel)) →
      ∃ t word, exec i s = .next t ∧ t.rspO = s.rspO ++ [word] ∧ t.encO = s.encO ∧ t.decO = s.decO)

/-- 43_decoder.md R152: a byte reaches dec_o only by a recognized symbol in an open stream at phase 2, 4 or 6: no step
of any other kind, DEC_START and reset included, emits a byte for buffered bits. -/
def Obligations.OnlyCompletingSymbolsReachTheDecoderOutput : Prop :=
  ∀ s t : State, step s = .next t → t.decO ≠ s.decO →
    ∃ w rest x, s.hostIn = .command w :: rest ∧ decode w = .command (.decSym x) ∧
      s.dec.state = .active ∧ s.dec.phase ≠ .zero ∧ Reference.recognized s.dec.url x = true

/-- 20_memory.md R58: commands of one engine neither read nor write the other's registers: whatever legal commands are
interleaved with it, a stream of encoder commands gives the encoder state, the enc_o bytes and the SEQ_ENC flag it gives
alone. -/
def Obligations.EncoderIsBlindToInterleavedCommands : Prop :=
  ∀ (is : List Instr) (s s' t t' : State),
    let own := is.filter (fun i => match i with
      | .encStart _ | .encByte _ | .encFinal => true
      | .nop | .decStart _ | .decSym _ | .lutFwd _ _ | .lutRev _ _ | .rdStat _ => false)
    presents s is [] → presents s' own [] →
    s.enc = s'.enc → s.encO = s'.encO → s.err.seqEnc = s'.err.seqEnc →
    steps is.length s = .next t → steps own.length s' = .next t' →
      t.enc = t'.enc ∧ t.encO = t'.encO ∧ t.err.seqEnc = t'.err.seqEnc

/-- 20_memory.md R58: the same for the decoder: whatever legal commands are interleaved with it, a stream of decoder
commands gives the decoder state, the dec_o bytes and the SEQ_DEC flag it gives alone. -/
def Obligations.DecoderIsBlindToInterleavedCommands : Prop :=
  ∀ (is : List Instr) (s s' t t' : State),
    let own := is.filter (fun i => match i with
      | .decStart _ | .decSym _ => true
      | .nop | .encStart _ | .encByte _ | .encFinal | .lutFwd _ _ | .lutRev _ _ | .rdStat _ => false)
    presents s is [] → presents s' own [] →
    s.dec = s'.dec → s.decO = s'.decO → s.err.seqDec = s'.err.seqDec →
    steps is.length s = .next t → steps own.length s' = .next t' →
      t.dec = t'.dec ∧ t.decO = t'.decO ∧ t.err.seqDec = t'.err.seqDec

/-- 20_memory.md R60, 70_reset_and_hazards.md R204: the commands the host issues for a stream depend only on the bytes of
its chunks put together, and they are those of the pseudo-commands of 30_encoding.md R77. -/
def Obligations.ChunkBoundariesAreInvisible : Prop :=
  ∀ (u : Bool) (chunks : List (List Byte)),
    encodeChunks u chunks = encodeStream u chunks.flatten ∧ decodeChunks u chunks = decodeStream u chunks.flatten

/-! ## Alphabets and queries (41_alphabet_lut.md) -/

/-- 41_alphabet_lut.md R101: REV is the inverse of FWD: the index of a symbol byte is unique and its entry is
`{0, i}`, and the entry of every other byte is `{1, 0}`. -/
def Obligations.ReverseTableInvertsForwardTable : Prop :=
  (∀ (u : Bool) (i : Sym), romRev (revAddr u (romFwd (fwdAddr u i))) = (0 : BitVec 1) ++ i) ∧
  (∀ (u : Bool) (i j : Sym), romFwd (fwdAddr u i) = romFwd (fwdAddr u j) → i = j) ∧
  (∀ (u : Bool) (x : Byte), (∀ i : Sym, romFwd (fwdAddr u i) ≠ x) →
    romRev (revAddr u x) = (1 : BitVec 1) ++ (0 : Sym))

/-- 41_alphabet_lut.md R102: each alphabet has exactly 64 recognized bytes; no byte from 0x80 on, nor newline, `=` or
space, is one. -/
def Obligations.SixtyFourRecognizedBytesPerAlphabet : Prop :=
  ∀ u : Bool,
    (((List.range 256).map (BitVec.ofNat 8)).countP (fun x => !revNF (romRev (revAddr u x))) = 64) ∧
    (∀ x : Byte, 0x80 ≤ x → revNF (romRev (revAddr u x)) = true) ∧
    revNF (romRev (revAddr u 0x0A)) = true ∧ revNF (romRev (revAddr u 0x3D)) = true ∧
    revNF (romRev (revAddr u 0x20)) = true

/-- 41_alphabet_lut.md R104: LUT_FWD responds with the symbol byte, zero-extended, and changes nothing else; a word of
its opcode with bits 11:9 or 7:6 set is illegal. -/
def Obligations.LutFwdRespondsWithTheSymbolByte : Prop :=
  (∀ (s : State) (u : Bool) (ix : Sym),
    exec (.lutFwd u ix) s = .next { s with rspO := s.rspO ++ [(fwdEntry u ix).setWidth 16] }) ∧
  (∀ (u v : Bool) (ix : Sym), fwdEntry u ix ≠ fwdEntry v ix → ix = 62 ∨ ix = 63) ∧
  (∀ (u : Bool) (ix : Sym), (fwdEntry u ix).setWidth 16 ≠ (0x000A : Word) ∧ (fwdEntry u ix).setWidth 16 ≠ (0x003D : Word)) ∧
  fwdEntry true 62 = 0x2D ∧ fwdEntry false 0 = 0x41 ∧
  (∀ w : Word, w &&& 0xF000 = 0x6000 → w &&& 0x0EC0 ≠ 0 → decode w = .illegal)

/-- 41_alphabet_lut.md R100 (the entries are the standard base64 alphabet by the spec's own mark, log 11): the response
of LUT_FWD at every index of both alphabets, in the table's closed form and, in order, as the table's characters. -/
def Obligations.ForwardTableHoldsTheStandardAlphabets : Prop :=
  (∀ (s : State) (ix : Sym),
    let answers (u : Bool) (n : Nat) : Prop :=
      exec (.lutFwd u ix) s = .next { s with rspO := s.rspO ++ [BitVec.ofNat 16 n] }
    (ix.toNat ≤ 25 → ∀ u, answers u (0x41 + ix.toNat)) ∧
    (26 ≤ ix.toNat → ix.toNat ≤ 51 → ∀ u, answers u (0x61 + (ix.toNat - 26))) ∧
    (52 ≤ ix.toNat → ix.toNat ≤ 61 → ∀ u, answers u (0x30 + (ix.toNat - 52))) ∧
    (ix = 62 → answers false 0x2B ∧ answers true 0x2D) ∧
    (ix = 63 → answers false 0x2F ∧ answers true 0x5F)) ∧
  (∀ u : Bool, (List.range 64).map (fun n => Char.ofNat (fwdEntry u (BitVec.ofNat 6 n)).toNat) =
    "ABCDEFGHIJKLMNOPQRSTUVWXYZabcdefghijklmnopqrstuvwxyz0123456789".toList ++
      (if u then ['-', '_'] else ['+', '/']))

/-- 41_alphabet_lut.md R105: LUT_REV responds with `{NF, IDX}`, zero-extended: the index of a recognized byte, 0x0040 for
any other; it changes nothing else, and a word of its opcode with bits 11:9 set is illegal. -/
def Obligations.LutRevRespondsWithTheIndexOrNotFound : Prop :=
  (∀ (s : State) (u : Bool) (i : Sym),
    exec (.lutRev u (fwdEntry u i)) s = .next { s with rspO := s.rspO ++ [i.setWidth 16] }) ∧
  (∀ (s : State) (u : Bool) (x : Byte), (∀ i : Sym, fwdEntry u i ≠ x) →
    exec (.lutRev u x) s = .next { s with rspO := s.rspO ++ [0x0040] }) ∧
  (∀ (s : State) (u : Bool), exec (.lutRev u 0x3D) s = .next { s with rspO := s.rspO ++ [0x0040] } ∧
    exec (.lutRev u 0x0A) s = .next { s with rspO := s.rspO ++ [0x0040] }) ∧
  (∀ s : State, exec (.lutRev true 0x2D) s = .next { s with rspO := s.rspO ++ [0x003E] } ∧
    exec (.lutRev false 0x2D) s = .next { s with rspO := s.rspO ++ [0x0040] } ∧
    exec (.lutRev false 0x41) s = .next { s with rspO := s.rspO ++ [0x0000] } ∧
    exec (.lutRev false 0x2F) s = .next { s with rspO := s.rspO ++ [0x003F] } ∧
    exec (.lutRev true 0x2F) s = .next { s with rspO := s.rspO ++ [0x0040] }) ∧
  (∀ w : Word, w &&& 0xF000 = 0x7000 → w &&& 0x0E00 ≠ 0 → decode w = .illegal)

/-! ## Encoder (42_encoder.md) -/

/-- 42_encoder.md R122: ENC_START opens a stream in every state of the encoder, with the registers it writes and nothing
else changed; a word of its opcode with any of bits 11:9 or 7:0 set is illegal. -/
def Obligations.EncStartOpensAStream : Prop :=
  (∀ (s : State) (u : Bool), exec (.encStart u) s =
    .next { s with enc := { state := .active, url := u, phase := .zero, carry := 0x00, line := 0 } }) ∧
  (∀ (s t : State), exec (.encStart true) s = .next t → encStatus t = 0x0C00 ∧ encLine t = 0) ∧
  (∀ w : Word, w &&& 0xF000 = 0x1000 → w &&& 0x0EFF ≠ 0 → decode w = .illegal)

/-- 42_encoder.md R123, R121: ENC_BYTE in an open stream: the symbols it emits at each phase, with the newline that R121
puts before a character, and the carry, phase and line it leaves; nothing else changes. Outside ACTIVE it raises SEQ_ENC;
a word of its opcode with any of bits 11:8 set is illegal. -/
def Obligations.EncByteConsumesOneByte : Prop :=
  (∀ (s : State) (b : Byte), s.enc.state = .active → s.enc.phase = .zero →
    exec (.encByte b) s = .next { s with
      encO := s.encO ++ Reference.charOut s.enc.url s.enc.line (fwdEntry s.enc.url (b.extractLsb' 2 6))
      enc := { s.enc with
        carry := (b.extractLsb' 0 2).setWidth 8 <<< 4
        phase := .one
        line := Reference.lineAfter s.enc.url s.enc.line } }) ∧
  (∀ (s : State) (b : Byte), s.enc.state = .active → s.enc.phase = .one →
    exec (.encByte b) s = .next { s with
      encO := s.encO ++ Reference.charOut s.enc.url s.enc.line
        (fwdEntry s.enc.url (s.enc.carry.extractLsb' 0 6 ||| (b.extractLsb' 4 4).setWidth 6))
      enc := { s.enc with
        carry := (b.extractLsb' 0 4).setWidth 8 <<< 2
        phase := .two
        line := Reference.lineAfter s.enc.url s.enc.line } }) ∧
  (∀ (s : State) (b : Byte), s.enc.state = .active → s.enc.phase = .two →
    exec (.encByte b) s = .next { s with
      encO := s.encO
        ++ Reference.charOut s.enc.url s.enc.line
          (fwdEntry s.enc.url (s.enc.carry.extractLsb' 0 6 ||| (b.extractLsb' 6 2).setWidth 6))
        ++ Reference.charOut s.enc.url (Reference.lineAfter s.enc.url s.enc.line)
          (fwdEntry s.enc.url (b.extractLsb' 0 6))
      enc := { s.enc with
        carry := 0x00
        phase := .zero
        line := Reference.lineAfter s.enc.url (Reference.lineAfter s.enc.url s.enc.line) } }) ∧
  (∀ (s : State) (b : Byte), s.enc.state ≠ .active →
    exec (.encByte b) s = .next { s with err := { s.err with seqEnc := true } }) ∧
  (∀ w : Word, w &&& 0xF000 = 0x2000 → w &&& 0x0F00 ≠ 0 → decode w = .illegal)

/-- 42_encoder.md R124: ENC_FINAL from an open stream of a reachable form: nothing at phase 0, the flushed symbol and, in
the standard alphabet, the padding at phases 1 and 2, no newline, then carry 0, phase 0 and DONE; URL kept. Outside
ACTIVE it raises SEQ_ENC; any other word of its opcode is illegal. -/
def Obligations.EncFinalFlushesPadsAndEnds : Prop :=
  (∀ s : State, s.enc.state = .active → s.enc.phase = .zero →
    exec .encFinal s = .next { s with enc := { s.enc with carry := 0x00, phase := .zero, state := .done } }) ∧
  (∀ s : State, s.enc.state = .active → s.enc.phase = .one → Legal s → GroupAligned s →
    exec .encFinal s = .next { s with
      encO := s.encO ++ [fwdEntry s.enc.url (s.enc.carry.extractLsb' 0 6)] ++
        (if s.enc.url then [] else [0x3D, 0x3D])
      enc := { s.enc with
        carry := 0x00, phase := .zero, state := .done
        line := if s.enc.url then s.enc.line else s.enc.line + 3 } }) ∧
  (∀ s : State, s.enc.state = .active → s.enc.phase = .two → Legal s → GroupAligned s →
    exec .encFinal s = .next { s with
      encO := s.encO ++ [fwdEntry s.enc.url (s.enc.carry.extractLsb' 0 6)] ++
        (if s.enc.url then [] else [0x3D])
      enc := { s.enc with
        carry := 0x00, phase := .zero, state := .done
        line := if s.enc.url then s.enc.line else s.enc.line + 2 } }) ∧
  (∀ s : State, s.enc.state ≠ .active →
    exec .encFinal s = .next { s with err := { s.err with seqEnc := true } }) ∧
  (∀ w : Word, w &&& 0xF000 = 0x3000 → w &&& 0x0FFF ≠ 0 → decode w = .illegal)

/-- 42_encoder.md R121, R124: ENC_FINAL from any open stream whatever, reachable or not: each character it emits goes
through the same emit step, and everything outside the encoder and enc_o stays. -/
def Obligations.EncFinalEmitsThroughTheLineWrap : Prop :=
  ∀ s : State, s.enc.state = .active →
    let ch (u : Bool) (l : BitVec 6) (c : Byte) := Reference.charOut u l c
    let l0 := s.enc.line
    let l1 := Reference.lineAfter s.enc.url l0
    let l2 := Reference.lineAfter s.enc.url l1
    let l3 := Reference.lineAfter s.enc.url l2
    let sym := fwdEntry s.enc.url (s.enc.carry.extractLsb' 0 6)
    exec .encFinal s = .next { s with
      encO := s.encO ++ (match s.enc.phase, s.enc.url with
        | .zero, _ => []
        | .one, true => ch true l0 sym
        | .two, true => ch true l0 sym
        | .one, false => ch false l0 sym ++ ch false l1 0x3D ++ ch false l2 0x3D
        | .two, false => ch false l0 sym ++ ch false l1 0x3D)
      enc := { s.enc with
        carry := 0x00, phase := .zero, state := .done
        line := match s.enc.phase, s.enc.url with
          | .zero, _ => l0
          | .one, true => l0
          | .two, true => l0
          | .one, false => l3
          | .two, false => l2 } }

/-- 42_encoder.md R125: from an aligned legal state a newline is emitted only by an ENC_BYTE at phase 0 of a standard
stream whose line is full, and there it is the first of the two bytes emitted. -/
def Obligations.NewlineOnlyBeforeAGroupOnAFullLine : Prop :=
  ∀ (s t : State) (i : Instr), Legal s → GroupAligned s → exec i s = .next t →
    ∃ out, t.encO = s.encO ++ out ∧
      (Config.newline ∈ out →
        (∃ b, i = .encByte b) ∧ s.enc.state = .active ∧ s.enc.phase = .zero ∧ s.enc.url = false ∧ s.enc.line = 60 ∧
        ∃ c, out = [Config.newline, c] ∧ c ≠ Config.newline)

/-- 42_encoder.md R126: the whole output of an encode stream, from any state, in closed form, with its length and, in
the standard alphabet, its number of newlines. That the events behind the stream stay presented is the model's form
(log 1). -/
def Obligations.EncodeStreamHasTheClosedForm : Prop :=
  ∀ (u : Bool) (bytes : List Byte) (s : State) (rest : List HostEvent),
    let n := bytes.length
    let groups := (n + 2) / 3
    presents s (encodeStream u bytes) rest →
      ∃ t, steps (encodeStream u bytes).length s = .next t ∧
        t.encO = s.encO ++ Reference.encoded u bytes ∧
        t.enc.state = .done ∧ t.hostIn = rest ∧
        (u = true → (Reference.encoded u bytes).length = (4 * n + 2) / 3 ∧
          Config.newline ∉ Reference.encoded u bytes ∧ Config.pad ∉ Reference.encoded u bytes) ∧
        (u = false → (Reference.encoded u bytes).length = 4 * groups + (groups - 1) / 15 ∧
          (Reference.encoded u bytes).count Config.newline = (groups - 1) / 15)

/-- 20_memory.md R52, 42_encoder.md R120: the symbols of an encode stream are the stream's bits, six at a time and most
significant first, with fill bits 0: bit j (counting from the top) of symbol k is bit 6k + j of the bytes' bit
string. -/
def Obligations.SymbolsAreTheBytesBitsSixAtATime : Prop :=
  ∀ (u : Bool) (bytes : List Byte) (s t : State) (rest : List HostEvent),
    presents s (encodeStream u bytes) rest → steps (encodeStream u bytes).length s = .next t →
      ∃ (out : List Byte) (syms : List Sym),
        t.encO = s.encO ++ out ∧
        out.filter (Reference.recognized u) = syms.map (fwdEntry u) ∧
        syms.length = (8 * bytes.length + 5) / 6 ∧
        ∀ k j : Nat, k < syms.length → j < 6 →
          (syms.getD k 0).getMsbD j = (Reference.bitString bytes).getD (6 * k + j) false

/-- 42_encoder.md R127: in the standard alphabet the number of padding bytes is 0, 2 or 1 as the number of input bytes
is 0, 1 or 2 mod 3, and a 46-byte input has its one newline after the 60th output byte, of 65. -/
def Obligations.PaddingAndLineWrapOfStandardStreams : Prop :=
  ∀ (bytes : List Byte) (s t : State) (rest : List HostEvent),
    presents s (encodeStream false bytes) rest → steps (encodeStream false bytes).length s = .next t →
      ∃ out, t.encO = s.encO ++ out ∧
        (bytes.length % 3 = 0 → out.count Config.pad = 0) ∧
        (bytes.length % 3 = 1 → out.count Config.pad = 2) ∧
        (bytes.length % 3 = 2 → out.count Config.pad = 1) ∧
        out.getLast? ≠ some Config.newline ∧
        (bytes.length = 46 → out.length = 65 ∧ out.idxOf Config.newline = 60 ∧ out.count Config.newline = 1)

/-! ## Decoder (43_decoder.md) -/

/-- 43_decoder.md R150: DEC_START opens a stream in every state of the decoder, dropping leftover bits without output,
and changes nothing else; a word of its opcode with any of bits 11:9 or 7:0 set is illegal. -/
def Obligations.DecStartOpensAStream : Prop :=
  (∀ (s : State) (u : Bool), exec (.decStart u) s =
    .next { s with dec := { state := .active, url := u, phase := .zero, carry := 0x00 } }) ∧
  (∀ (s t : State), exec (.decStart false) s = .next t → decStatus t = 0x1000) ∧
  (∀ w : Word, w &&& 0xF000 = 0x4000 → w &&& 0x0EFF ≠ 0 → decode w = .illegal)

/-- 43_decoder.md R151: DEC_SYM in an open stream: an unrecognized byte changes nothing; a recognized symbol c at phase p
emits `DEC.CARRY | (c >> (6 - p))` unless p = 0 and leaves phase (p + 2) mod 8 and the carry `(c << p') & 0xFF`, 0 at
phase 0; nothing else changes. Outside ACTIVE it raises SEQ_DEC; a word of its opcode with any of bits 11:8 set is
illegal. -/
def Obligations.DecSymConsumesOneByte : Prop :=
  (∀ (s : State) (x : Byte), s.dec.state = .active → (∀ i : Sym, fwdEntry s.dec.url i ≠ x) →
    exec (.decSym x) s = .next s) ∧
  (∀ (s : State) (c : Sym), s.dec.state = .active →
    ∃ p' : DecPhase, p'.toNat = (s.dec.phase.toNat + 2) % 8 ∧
      exec (.decSym (fwdEntry s.dec.url c)) s = .next { s with
        decO := s.decO ++ (if s.dec.phase.toNat = 0 then []
          else [s.dec.carry ||| BitVec.ofNat 8 (c.toNat >>> (6 - s.dec.phase.toNat))])
        dec := { s.dec with
          phase := p'
          carry := if p'.toNat = 0 then 0x00 else BitVec.ofNat 8 (c.toNat <<< p'.toNat % 256) } }) ∧
  (∀ (s : State) (x : Byte), s.dec.state ≠ .active →
    exec (.decSym x) s = .next { s with err := { s.err with seqDec := true } }) ∧
  (∀ w : Word, w &&& 0xF000 = 0x5000 → w &&& 0x0F00 ≠ 0 → decode w = .illegal)

/-- 43_decoder.md R153: a decode stream with r recognized bytes emits exactly ⌊3r/4⌋ bytes, the first ⌊3r/4⌋ bytes of
the bit string of the recognized symbols, most significant bit first, and ends at phase 2r mod 8, from any state. That
the events behind the stream stay presented is the model's form (log 1). -/
def Obligations.DecodeStreamHasTheClosedForm : Prop :=
  ∀ (u : Bool) (bytes : List Byte) (s : State) (rest : List HostEvent),
    let syms := Reference.recognizedSymbols u bytes
    presents s (decodeStream u bytes) rest →
      ∃ (t : State) (out : List Byte), steps (decodeStream u bytes).length s = .next t ∧
        t.decO = s.decO ++ out ∧ out.length = 3 * syms.length / 4 ∧
        (∀ k j : Nat, k < out.length → j < 8 →
          some ((out.getD k 0).getMsbD j) = (Reference.bitString syms)[8 * k + j]?) ∧
        t.dec.phase.toNat = 2 * syms.length % 8 ∧ t.hostIn = rest

/-- 43_decoder.md R154: two decode streams with the same recognized bytes, whatever noise stands between them, give the
same dec_o bytes and the same final decoder state. -/
def Obligations.DecodingIgnoresNoise : Prop :=
  ∀ (u : Bool) (bytes bytes' : List Byte) (s s' t t' : State) (rest rest' : List HostEvent),
    bytes.filter (Reference.recognized u) = bytes'.filter (Reference.recognized u) →
    presents s (decodeStream u bytes) rest → presents s' (decodeStream u bytes') rest' → s.decO = s'.decO →
    steps (decodeStream u bytes).length s = .next t → steps (decodeStream u bytes').length s' = .next t' →
      t.decO = t'.decO ∧ t.dec = t'.dec

/-- 43_decoder.md R155: decoding what an encode stream emitted gives the bytes back, for every byte sequence and either
alphabet. Decoding it with the other alphabet loses every symbol 62 and 63 as noise: it emits the whole bytes in the bits
of the remaining symbols, and fewer bytes than were encoded where such a symbol occurs. -/
def Obligations.DecodingAnEncodingGivesTheBytesBack : Prop :=
  ∀ (u : Bool) (bytes out : List Byte) (s t : State) (rest : List HostEvent),
    presents s (encodeStream u bytes) rest → steps (encodeStream u bytes).length s = .next t →
    t.encO = s.encO ++ out →
      (∀ (v : State) (rest' : List HostEvent), presents v (decodeStream u out) rest' →
        ∃ t', steps (decodeStream u out).length v = .next t' ∧ t'.decO = v.decO ++ bytes) ∧
      (∀ (v : State) (rest' : List HostEvent), presents v (decodeStream (!u) out) rest' →
        let left := (Reference.symbols bytes).filter (fun c => c ≠ 62 ∧ c ≠ 63)
        ∃ (t' : State) (back : List Byte), steps (decodeStream (!u) out).length v = .next t' ∧
          t'.decO = v.decO ++ back ∧ back.length = 3 * left.length / 4 ∧
          (∀ k j : Nat, k < back.length → j < 8 →
            some ((back.getD k 0).getMsbD j) = (Reference.bitString left)[8 * k + j]?) ∧
          ((62 : Sym) ∈ Reference.symbols bytes ∨ (63 : Sym) ∈ Reference.symbols bytes →
            back.length < bytes.length))

/-! ## Control (44_control.md, 10_state.md R34 to R37) -/

/-- 44_control.md R170: NOP changes nothing in any state, and every other word of its opcode is illegal. -/
def Obligations.NopChangesNothing : Prop :=
  (∀ s : State, exec .nop s = .next s) ∧
  (∀ w : Word, w &&& 0xF000 = 0x0000 → w ≠ 0x0000 → decode w = .illegal)

/-- 44_control.md R171, 10_state.md R34 to R37: RD_STAT responds with the selected status register, each bit field where
the layouts have it and with the values they give (IDLE 0, ACTIVE 1, DONE 2), and changes nothing else; a word of its
opcode with any of bits 11:2 set is illegal. -/
def Obligations.RdStatRespondsWithTheStatusRegister : Prop :=
  (∀ s : State,
    (∃ w : Word, exec (.rdStat 0) s = .next { s with rspO := s.rspO ++ [w] } ∧
      w.extractLsb' 0 8 = s.enc.carry ∧
      w.extractLsb' 8 2 = (match s.enc.phase with | .zero => 0 | .one => 1 | .two => 2) ∧
      w.getLsbD 10 = s.enc.url ∧
      w.extractLsb' 11 2 = (match s.enc.state with | .idle => 0 | .active => 1 | .done => 2) ∧
      w.extractLsb' 13 3 = 0) ∧
    (∃ w : Word, exec (.rdStat 1) s = .next { s with rspO := s.rspO ++ [w] } ∧
      w.extractLsb' 0 6 = s.enc.line ∧ w.extractLsb' 6 10 = 0) ∧
    (∃ w : Word, exec (.rdStat 2) s = .next { s with rspO := s.rspO ++ [w] } ∧
      w.extractLsb' 0 8 = s.dec.carry ∧
      w.extractLsb' 8 3 = (match s.dec.phase with | .zero => 0 | .two => 2 | .four => 4 | .six => 6) ∧
      w.getLsbD 11 = s.dec.url ∧ w.getLsbD 12 = decide (s.dec.state = .active) ∧ w.extractLsb' 13 3 = 0) ∧
    (∃ w : Word, exec (.rdStat 3) s = .next { s with rspO := s.rspO ++ [w] } ∧
      w.getLsbD 0 = s.err.ill ∧ w.getLsbD 1 = s.err.seqEnc ∧ w.getLsbD 2 = s.err.seqDec ∧
      w.extractLsb' 3 13 = 0)) ∧
  (∀ w : Word, w &&& 0xF000 = 0x8000 → w &&& 0x0FFC ≠ 0 → decode w = .illegal)
end

