-- ==== Sys2Proof/Laws/State.lean ====
section
/-! SUPPORT. For every named update of the state, what each field is after it: the update's own field has the value
written, and every other field is as before. All true by `rfl`, so that no later proof unfolds a record update. -/

namespace Sys2Proof.Machine

variable (s : State)

@[simp] theorem State.setEncState_enc (v : EncState) : (s.setEncState v).enc = { s.enc with state := v } := rfl
@[simp] theorem State.setEncState_dec (v : EncState) : (s.setEncState v).dec = s.dec := rfl
@[simp] theorem State.setEncState_err (v : EncState) : (s.setEncState v).err = s.err := rfl
@[simp] theorem State.setEncState_encO (v : EncState) : (s.setEncState v).encO = s.encO := rfl
@[simp] theorem State.setEncState_decO (v : EncState) : (s.setEncState v).decO = s.decO := rfl
@[simp] theorem State.setEncState_rspO (v : EncState) : (s.setEncState v).rspO = s.rspO := rfl
@[simp] theorem State.setEncState_hostIn (v : EncState) : (s.setEncState v).hostIn = s.hostIn := rfl

@[simp] theorem State.setEncUrl_enc (v : Bool) : (s.setEncUrl v).enc = { s.enc with url := v } := rfl
@[simp] theorem State.setEncUrl_dec (v : Bool) : (s.setEncUrl v).dec = s.dec := rfl
@[simp] theorem State.setEncUrl_err (v : Bool) : (s.setEncUrl v).err = s.err := rfl
@[simp] theorem State.setEncUrl_encO (v : Bool) : (s.setEncUrl v).encO = s.encO := rfl
@[simp] theorem State.setEncUrl_decO (v : Bool) : (s.setEncUrl v).decO = s.decO := rfl
@[simp] theorem State.setEncUrl_rspO (v : Bool) : (s.setEncUrl v).rspO = s.rspO := rfl
@[simp] theorem State.setEncUrl_hostIn (v : Bool) : (s.setEncUrl v).hostIn = s.hostIn := rfl

@[simp] theorem State.setEncPhase_enc (v : EncPhase) : (s.setEncPhase v).enc = { s.enc with phase := v } := rfl
@[simp] theorem State.setEncPhase_dec (v : EncPhase) : (s.setEncPhase v).dec = s.dec := rfl
@[simp] theorem State.setEncPhase_err (v : EncPhase) : (s.setEncPhase v).err = s.err := rfl
@[simp] theorem State.setEncPhase_encO (v : EncPhase) : (s.setEncPhase v).encO = s.encO := rfl
@[simp] theorem State.setEncPhase_decO (v : EncPhase) : (s.setEncPhase v).decO = s.decO := rfl
@[simp] theorem State.setEncPhase_rspO (v : EncPhase) : (s.setEncPhase v).rspO = s.rspO := rfl
@[simp] theorem State.setEncPhase_hostIn (v : EncPhase) : (s.setEncPhase v).hostIn = s.hostIn := rfl

@[simp] theorem State.setEncCarry_enc (v : Byte) : (s.setEncCarry v).enc = { s.enc with carry := v } := rfl
@[simp] theorem State.setEncCarry_dec (v : Byte) : (s.setEncCarry v).dec = s.dec := rfl
@[simp] theorem State.setEncCarry_err (v : Byte) : (s.setEncCarry v).err = s.err := rfl
@[simp] theorem State.setEncCarry_encO (v : Byte) : (s.setEncCarry v).encO = s.encO := rfl
@[simp] theorem State.setEncCarry_decO (v : Byte) : (s.setEncCarry v).decO = s.decO := rfl
@[simp] theorem State.setEncCarry_rspO (v : Byte) : (s.setEncCarry v).rspO = s.rspO := rfl
@[simp] theorem State.setEncCarry_hostIn (v : Byte) : (s.setEncCarry v).hostIn = s.hostIn := rfl

@[simp] theorem State.setEncLine_enc (v : BitVec 6) : (s.setEncLine v).enc = { s.enc with line := v } := rfl
@[simp] theorem State.setEncLine_dec (v : BitVec 6) : (s.setEncLine v).dec = s.dec := rfl
@[simp] theorem State.setEncLine_err (v : BitVec 6) : (s.setEncLine v).err = s.err := rfl
@[simp] theorem State.setEncLine_encO (v : BitVec 6) : (s.setEncLine v).encO = s.encO := rfl
@[simp] theorem State.setEncLine_decO (v : BitVec 6) : (s.setEncLine v).decO = s.decO := rfl
@[simp] theorem State.setEncLine_rspO (v : BitVec 6) : (s.setEncLine v).rspO = s.rspO := rfl
@[simp] theorem State.setEncLine_hostIn (v : BitVec 6) : (s.setEncLine v).hostIn = s.hostIn := rfl

@[simp] theorem State.setDecState_enc (v : DecState) : (s.setDecState v).enc = s.enc := rfl
@[simp] theorem State.setDecState_dec (v : DecState) : (s.setDecState v).dec = { s.dec with state := v } := rfl
@[simp] theorem State.setDecState_err (v : DecState) : (s.setDecState v).err = s.err := rfl
@[simp] theorem State.setDecState_encO (v : DecState) : (s.setDecState v).encO = s.encO := rfl
@[simp] theorem State.setDecState_decO (v : DecState) : (s.setDecState v).decO = s.decO := rfl
@[simp] theorem State.setDecState_rspO (v : DecState) : (s.setDecState v).rspO = s.rspO := rfl
@[simp] theorem State.setDecState_hostIn (v : DecState) : (s.setDecState v).hostIn = s.hostIn := rfl

@[simp] theorem State.setDecUrl_enc (v : Bool) : (s.setDecUrl v).enc = s.enc := rfl
@[simp] theorem State.setDecUrl_dec (v : Bool) : (s.setDecUrl v).dec = { s.dec with url := v } := rfl
@[simp] theorem State.setDecUrl_err (v : Bool) : (s.setDecUrl v).err = s.err := rfl
@[simp] theorem State.setDecUrl_encO (v : Bool) : (s.setDecUrl v).encO = s.encO := rfl
@[simp] theorem State.setDecUrl_decO (v : Bool) : (s.setDecUrl v).decO = s.decO := rfl
@[simp] theorem State.setDecUrl_rspO (v : Bool) : (s.setDecUrl v).rspO = s.rspO := rfl
@[simp] theorem State.setDecUrl_hostIn (v : Bool) : (s.setDecUrl v).hostIn = s.hostIn := rfl

@[simp] theorem State.setDecPhase_enc (v : DecPhase) : (s.setDecPhase v).enc = s.enc := rfl
@[simp] theorem State.setDecPhase_dec (v : DecPhase) : (s.setDecPhase v).dec = { s.dec with phase := v } := rfl
@[simp] theorem State.setDecPhase_err (v : DecPhase) : (s.setDecPhase v).err = s.err := rfl
@[simp] theorem State.setDecPhase_encO (v : DecPhase) : (s.setDecPhase v).encO = s.encO := rfl
@[simp] theorem State.setDecPhase_decO (v : DecPhase) : (s.setDecPhase v).decO = s.decO := rfl
@[simp] theorem State.setDecPhase_rspO (v : DecPhase) : (s.setDecPhase v).rspO = s.rspO := rfl
@[simp] theorem State.setDecPhase_hostIn (v : DecPhase) : (s.setDecPhase v).hostIn = s.hostIn := rfl

@[simp] theorem State.setDecCarry_enc (v : Byte) : (s.setDecCarry v).enc = s.enc := rfl
@[simp] theorem State.setDecCarry_dec (v : Byte) : (s.setDecCarry v).dec = { s.dec with carry := v } := rfl
@[simp] theorem State.setDecCarry_err (v : Byte) : (s.setDecCarry v).err = s.err := rfl
@[simp] theorem State.setDecCarry_encO (v : Byte) : (s.setDecCarry v).encO = s.encO := rfl
@[simp] theorem State.setDecCarry_decO (v : Byte) : (s.setDecCarry v).decO = s.decO := rfl
@[simp] theorem State.setDecCarry_rspO (v : Byte) : (s.setDecCarry v).rspO = s.rspO := rfl
@[simp] theorem State.setDecCarry_hostIn (v : Byte) : (s.setDecCarry v).hostIn = s.hostIn := rfl

@[simp] theorem State.setHostIn_enc (v : List HostEvent) : (s.setHostIn v).enc = s.enc := rfl
@[simp] theorem State.setHostIn_dec (v : List HostEvent) : (s.setHostIn v).dec = s.dec := rfl
@[simp] theorem State.setHostIn_err (v : List HostEvent) : (s.setHostIn v).err = s.err := rfl
@[simp] theorem State.setHostIn_encO (v : List HostEvent) : (s.setHostIn v).encO = s.encO := rfl
@[simp] theorem State.setHostIn_decO (v : List HostEvent) : (s.setHostIn v).decO = s.decO := rfl
@[simp] theorem State.setHostIn_rspO (v : List HostEvent) : (s.setHostIn v).rspO = s.rspO := rfl
@[simp] theorem State.setHostIn_hostIn (v : List HostEvent) : (s.setHostIn v).hostIn = v := rfl

@[simp] theorem emitEnc_enc (v : Byte) : (emitEnc v s).enc = s.enc := rfl
@[simp] theorem emitEnc_dec (v : Byte) : (emitEnc v s).dec = s.dec := rfl
@[simp] theorem emitEnc_err (v : Byte) : (emitEnc v s).err = s.err := rfl
@[simp] theorem emitEnc_encO (v : Byte) : (emitEnc v s).encO = s.encO ++ [v] := rfl
@[simp] theorem emitEnc_decO (v : Byte) : (emitEnc v s).decO = s.decO := rfl
@[simp] theorem emitEnc_rspO (v : Byte) : (emitEnc v s).rspO = s.rspO := rfl
@[simp] theorem emitEnc_hostIn (v : Byte) : (emitEnc v s).hostIn = s.hostIn := rfl

@[simp] theorem emitDec_enc (v : Byte) : (emitDec v s).enc = s.enc := rfl
@[simp] theorem emitDec_dec (v : Byte) : (emitDec v s).dec = s.dec := rfl
@[simp] theorem emitDec_err (v : Byte) : (emitDec v s).err = s.err := rfl
@[simp] theorem emitDec_encO (v : Byte) : (emitDec v s).encO = s.encO := rfl
@[simp] theorem emitDec_decO (v : Byte) : (emitDec v s).decO = s.decO ++ [v] := rfl
@[simp] theorem emitDec_rspO (v : Byte) : (emitDec v s).rspO = s.rspO := rfl
@[simp] theorem emitDec_hostIn (v : Byte) : (emitDec v s).hostIn = s.hostIn := rfl

@[simp] theorem respond_enc (v : Word) : (respond v s).enc = s.enc := rfl
@[simp] theorem respond_dec (v : Word) : (respond v s).dec = s.dec := rfl
@[simp] theorem respond_err (v : Word) : (respond v s).err = s.err := rfl
@[simp] theorem respond_encO (v : Word) : (respond v s).encO = s.encO := rfl
@[simp] theorem respond_decO (v : Word) : (respond v s).decO = s.decO := rfl
@[simp] theorem respond_rspO (v : Word) : (respond v s).rspO = s.rspO ++ [v] := rfl
@[simp] theorem respond_hostIn (v : Word) : (respond v s).hostIn = s.hostIn := rfl

@[simp] theorem raise_enc (v : Fault) : (raise v s).enc = s.enc := rfl
@[simp] theorem raise_dec (v : Fault) : (raise v s).dec = s.dec := rfl
@[simp] theorem raise_err (v : Fault) : (raise v s).err = s.err.set v := rfl
@[simp] theorem raise_encO (v : Fault) : (raise v s).encO = s.encO := rfl
@[simp] theorem raise_decO (v : Fault) : (raise v s).decO = s.decO := rfl
@[simp] theorem raise_rspO (v : Fault) : (raise v s).rspO = s.rspO := rfl
@[simp] theorem raise_hostIn (v : Fault) : (raise v s).hostIn = s.hostIn := rfl

@[simp] theorem applyReset_enc : (applyReset s).enc = Enc.reset := rfl
@[simp] theorem applyReset_dec : (applyReset s).dec = Dec.reset := rfl
@[simp] theorem applyReset_err : (applyReset s).err = Err.reset := rfl
@[simp] theorem applyReset_encO : (applyReset s).encO = s.encO := rfl
@[simp] theorem applyReset_decO : (applyReset s).decO = s.decO := rfl
@[simp] theorem applyReset_rspO : (applyReset s).rspO = s.rspO := rfl
@[simp] theorem applyReset_hostIn : (applyReset s).hostIn = s.hostIn := rfl

end Sys2Proof.Machine
end

