-- ==== Sys2Proof/Laws/Ops.lean ====
section
/-! SUPPORT. What each shared operation does, said once as one equation or one small lemma: callers rewrite with these
and do not unfold the operations. -/

namespace Sys2Proof.Machine

/-! ### The tables -/

@[simp] theorem romFwd_fwdAddr (u : Bool) (i : Sym) : romFwd (fwdAddr u i) = fwdEntry u i := by
  have hu : (fwdAddr u i).getLsbD 6 = u := by cases u <;> revert i <;> decide
  have hi : (fwdAddr u i).extractLsb' 0 6 = i := by cases u <;> revert i <;> decide
  rw [romFwd, hu, hi]

@[simp] theorem romRev_revAddr (u : Bool) (x : Byte) : romRev (revAddr u x) = revEntry u x := by
  have hu : (revAddr u x).getLsbD 8 = u := by cases u <;> revert x <;> decide
  have hx : (revAddr u x).extractLsb' 0 8 = x := by cases u <;> revert x <;> decide
  rw [romRev, hu, hx]

@[simp] theorem revNF_revFound (i : Sym) : revNF (revFound i) = false := by revert i; decide

@[simp] theorem revIDX_revFound (i : Sym) : revIDX (revFound i) = i := by revert i; decide

@[simp] theorem revNF_revNotFound : revNF revNotFound = true := rfl

/-! ### The character-emit step -/

/-- `emit_char` changes `enc_o` and `ENC.LINE` and nothing else, as the closed forms of R121 say. -/
theorem emitChar_eq (ch : Byte) (s : State) :
    emitChar ch s = { s with
      encO := s.encO ++ Reference.charOut s.enc.url s.enc.line ch
      enc := { s.enc with line := Reference.lineAfter s.enc.url s.enc.line } } := by
  rcases s with ⟨⟨st, u, ph, ca, l⟩, d, e, eo, dq, r, h⟩
  cases u
  · by_cases hl : l = 60#6
    · subst hl
      simp [emitChar, wrapLine, countChar, emitEnc, State.setEncLine, Config.lineWidth, Config.newline,
        Reference.charOut, Reference.lineAfter]
    · simp [emitChar, wrapLine, countChar, emitEnc, State.setEncLine, Config.lineWidth,
        Reference.charOut, Reference.lineAfter, hl]
  · simp [emitChar, wrapLine, countChar, emitEnc, Reference.charOut, Reference.lineAfter]

/-- `emit_sym` is `emit_char` of the symbol's byte in the open stream's alphabet. -/
theorem emitSym_eq (i : Sym) (s : State) : emitSym i s = emitChar (fwdEntry s.enc.url i) s := by
  rw [emitSym, romFwd_fwdAddr]

/-- The padding step does nothing in a URL-safe stream. -/
theorem emitPad_url {s : State} (h : s.enc.url = true) : emitPad s = s := by simp [emitPad, h]

/-- The padding step emits `=` in a standard stream. -/
theorem emitPad_std {s : State} (h : s.enc.url = false) : emitPad s = emitChar Config.pad s := by simp [emitPad, h]

@[simp] theorem emitChar_dec (ch : Byte) (s : State) : (emitChar ch s).dec = s.dec := by rw [emitChar_eq]

@[simp] theorem emitChar_err (ch : Byte) (s : State) : (emitChar ch s).err = s.err := by rw [emitChar_eq]

@[simp] theorem emitChar_decO (ch : Byte) (s : State) : (emitChar ch s).decO = s.decO := by rw [emitChar_eq]

@[simp] theorem emitChar_rspO (ch : Byte) (s : State) : (emitChar ch s).rspO = s.rspO := by rw [emitChar_eq]

@[simp] theorem emitChar_hostIn (ch : Byte) (s : State) : (emitChar ch s).hostIn = s.hostIn := by rw [emitChar_eq]

@[simp] theorem emitChar_url (ch : Byte) (s : State) : (emitChar ch s).enc.url = s.enc.url := by rw [emitChar_eq]

@[simp] theorem emitChar_line (ch : Byte) (s : State) :
    (emitChar ch s).enc.line = Reference.lineAfter s.enc.url s.enc.line := by rw [emitChar_eq]

@[simp] theorem emitChar_encO (ch : Byte) (s : State) :
    (emitChar ch s).encO = s.encO ++ Reference.charOut s.enc.url s.enc.line ch := by rw [emitChar_eq]

/-! ### The engines' larger steps touch only their own engine -/

/-- A byte of an open encode stream leaves everything outside the encoder and `enc_o` as it was. -/
theorem encodeByte_frame (b : Byte) (s : State) :
    (encodeByte b s).dec = s.dec ∧ (encodeByte b s).err = s.err ∧ (encodeByte b s).decO = s.decO ∧
      (encodeByte b s).rspO = s.rspO ∧ (encodeByte b s).hostIn = s.hostIn := by
  unfold encodeByte
  split <;> simp [emitSym_eq]

@[simp] theorem emitPad_frame (s : State) :
    (emitPad s).dec = s.dec ∧ (emitPad s).err = s.err ∧ (emitPad s).decO = s.decO ∧
      (emitPad s).rspO = s.rspO ∧ (emitPad s).hostIn = s.hostIn := by
  unfold emitPad
  split <;> simp

/-- The flush of ENC_FINAL leaves everything outside the encoder and `enc_o` as it was. -/
theorem flushGroup_frame (s : State) :
    (flushGroup s).dec = s.dec ∧ (flushGroup s).err = s.err ∧ (flushGroup s).decO = s.decO ∧
      (flushGroup s).rspO = s.rspO ∧ (flushGroup s).hostIn = s.hostIn := by
  unfold flushGroup
  split <;> simp [emitPad_frame, emitSym_eq]

/-- A recognized symbol leaves everything outside the decoder and `dec_o` as it was. -/
theorem decodeSymbol_frame (c : Sym) (s : State) :
    (decodeSymbol c s).enc = s.enc ∧ (decodeSymbol c s).err = s.err ∧ (decodeSymbol c s).encO = s.encO ∧
      (decodeSymbol c s).rspO = s.rspO ∧ (decodeSymbol c s).hostIn = s.hostIn := by
  unfold decodeSymbol
  by_cases h : s.dec.phase = .zero <;> simp [h]

/-- A byte of an open decode stream leaves everything outside the decoder and `dec_o` as it was. -/
theorem decodeByte_frame (x : Byte) (s : State) :
    (decodeByte x s).enc = s.enc ∧ (decodeByte x s).err = s.err ∧ (decodeByte x s).encO = s.encO ∧
      (decodeByte x s).rspO = s.rspO ∧ (decodeByte x s).hostIn = s.hostIn := by
  unfold decodeByte
  by_cases h : revNF (romRev (revAddr s.dec.url x)) = true
  · simp only [h, if_true, and_self]
  · simp only [if_neg h]
    exact decodeSymbol_frame _ s

end Sys2Proof.Machine
end

