-- ==== Sys2Proof/Laws/PerInstr.lean ====
section
/-! SUPPORT. Facts about every command as syntax, one lemma per constructor. -/

namespace Sys2Proof.Laws.EncodesLegal

/-- The word of a command breaks none of the checks of 30_encoding.md R74. -/
def Statement (i : Instr) : Prop := CmdWord.legal (encode i) = true

theorem nop : Statement .nop := by unfold Statement; decide

theorem encStart (u : Bool) : Statement (.encStart u) := by unfold Statement; revert u; decide

theorem encByte (d8 : Byte) : Statement (.encByte d8) := by unfold Statement; revert d8; decide

theorem encFinal : Statement .encFinal := by unfold Statement; decide

theorem decStart (u : Bool) : Statement (.decStart u) := by unfold Statement; revert u; decide

theorem decSym (d8 : Byte) : Statement (.decSym d8) := by unfold Statement; revert d8; decide

theorem lutFwd (u : Bool) (ix : Sym) : Statement (.lutFwd u ix) := by unfold Statement; revert u ix; decide

theorem lutRev (u : Bool) (d8 : Byte) : Statement (.lutRev u d8) := by unfold Statement; revert u d8; decide

theorem rdStat (sel : BitVec 2) : Statement (.rdStat sel) := by unfold Statement; revert sel; decide

end Sys2Proof.Laws.EncodesLegal
end

