-- ==== Sys2Proof/Laws/Step.lean ====
section
/-! SUPPORT. What a step can do, said once: the case analysis from which statements about every step follow. -/

namespace Sys2Proof.Machine

/-- A command answers a next state or, by name, nothing else: which state it is, per command. -/
theorem exec_cases {i : Instr} {s t : State} (h : exec i s = .next t) :
    (i = .nop ∧ t = s) ∨
    (∃ u, i = .encStart u ∧
      t = { s with enc := { state := .active, url := u, phase := .zero, carry := 0, line := 0 } }) ∨
    (∃ b, i = .encByte b ∧ s.enc.state = .active ∧ t = encodeByte b s) ∨
    (∃ b, i = .encByte b ∧ s.enc.state ≠ .active ∧ t = raise .seqEnc s) ∨
    (i = .encFinal ∧ s.enc.state = .active ∧
      t = (((flushGroup s).setEncCarry 0).setEncPhase .zero).setEncState .done) ∨
    (i = .encFinal ∧ s.enc.state ≠ .active ∧ t = raise .seqEnc s) ∨
    (∃ u, i = .decStart u ∧ t = { s with dec := { state := .active, url := u, phase := .zero, carry := 0 } }) ∨
    (∃ x, i = .decSym x ∧ s.dec.state = .active ∧ t = decodeByte x s) ∨
    (∃ x, i = .decSym x ∧ s.dec.state ≠ .active ∧ t = raise .seqDec s) ∨
    (∃ u ix, i = .lutFwd u ix ∧ t = respond ((fwdEntry u ix).setWidth 16) s) ∨
    (∃ u x, i = .lutRev u x ∧ t = respond ((revEntry u x).setWidth 16) s) ∨
    (∃ sel, i = .rdStat sel ∧ t = respond (statRead sel s) s) := by
  cases i with
  | nop => cases h; exact .inl ⟨rfl, rfl⟩
  | encStart u => cases h; exact .inr (.inl ⟨u, rfl, rfl⟩)
  | encByte b =>
    by_cases hs : s.enc.state = .active <;> simp only [exec, execEncByte, hs] at h <;> cases h <;> simp [hs]
  | encFinal =>
    by_cases hs : s.enc.state = .active <;> simp only [exec, execEncFinal, hs] at h <;> cases h <;> simp [hs]
  | decStart u => cases h; simp [State.setDecUrl, State.setDecPhase, State.setDecCarry, State.setDecState]
  | decSym x =>
    by_cases hs : s.dec.state = .active <;> simp only [exec, execDecSym, hs] at h <;> cases h <;> simp [hs]
  | lutFwd u ix => cases h; simp
  | lutRev u x => cases h; simp
  | rdStat sel => cases h; simp

/-- What a step that answers `t` has done: waited, reset, run the command of the next word, or raised ILL. -/
theorem step_cases {s t : State} (h : step s = .next t) :
    (s.hostIn = [] ∧ t = s) ∨
    (∃ rest, s.hostIn = .reset :: rest ∧ t = applyReset (s.setHostIn rest)) ∨
    (∃ w rest i, s.hostIn = .command w :: rest ∧ decode w = .command i ∧ exec i (s.setHostIn rest) = .next t) ∨
    (∃ w rest, s.hostIn = .command w :: rest ∧ decode w = .illegal ∧ t = raise .ill (s.setHostIn rest)) := by
  unfold step takeInput at h
  rcases hq : s.hostIn with _ | ⟨_ | _, rest⟩
  · simp only [hq] at h
    cases h
    exact .inl ⟨rfl, rfl⟩
  · rename_i w
    simp only [hq] at h
    cases hd : decode w with
    | command i =>
      simp only [hd] at h
      exact .inr (.inr (.inl ⟨w, rest, i, rfl, hd, h⟩))
    | illegal =>
      simp only [hd] at h
      cases h
      exact .inr (.inr (.inr ⟨w, rest, rfl, hd, rfl⟩))
  · simp only [hq] at h
    cases h
    exact .inr (.inl ⟨rest, rfl, rfl⟩)

/-- Steps in a row compose: `j` steps and then `k` more are `j + k` steps. -/
theorem steps_add {j k : Nat} {s t : State} (h : steps j s = .next t) : steps (j + k) s = steps k t := by
  induction j generalizing s with
  | zero => cases h; rw [Nat.zero_add]
  | succ j ih =>
    rw [Nat.succ_add]
    simp only [steps] at h ⊢
    cases hs : step s with
    | next u => simp only [hs] at h ⊢; exact ih h
    | fault f => simp [hs] at h
    | refused r => simp [hs] at h

/-- A state predicate that every step keeps holds after any number of steps: the induction, packaged once. -/
theorem steps_invariant {P : State → Prop} (hstep : ∀ s t, P s → step s = .next t → P t) {k : Nat} {s t : State}
    (hs : P s) (h : steps k s = .next t) : P t := by
  induction k generalizing s with
  | zero => cases h; exact hs
  | succ k ih =>
    simp only [steps] at h
    cases hq : step s with
    | next u => simp only [hq] at h; exact ih (hstep s u hs hq) h
    | fault f => simp [hq] at h
    | refused r => simp [hq] at h

end Sys2Proof.Machine
end

