-- ==== Sys2Proof/Tests/Slice0.lean ====
section
/-! SUPPORT. The model's own tests, with the expected results of spec/95_test_vectors.md and of the rules' worked
examples, and the witnesses that the hypotheses of the statements can be met. -/

namespace Sys2Proof.Tests

open Sys2Proof.Machine

/-- The next state, if the outcome is one. -/
def next? : Result → Option State
  | .next t => some t
  | .fault _ => none
  | .refused _ => none

/-- The reset state with the encoder's registers set. -/
def encAt (state : EncState) (url : Bool) (phase : EncPhase) (carry : Byte) (line : BitVec 6) : State :=
  { State.reset with enc := { state, url, phase, carry, line } }

/-- The reset state with the decoder's registers set. -/
def decAt (state : DecState) (url : Bool) (phase : DecPhase) (carry : Byte) : State :=
  { State.reset with dec := { state, url, phase, carry } }

/-- What a vector row of 95_test_vectors.md 2.2 shows after a command: enc_o, ENC_STATUS, ENC_LINE. -/
def encView (r : Result) : Option (List Byte × Word × Word) :=
  (next? r).map (fun t => (t.encO, encStatus t, encLine t))

/-- What a vector row of 95_test_vectors.md 2.5 shows after a command: dec_o, DEC_STATUS. -/
def decView (r : Result) : Option (List Byte × Word) := (next? r).map (fun t => (t.decO, decStatus t))

/-! ### WellFormed: one word for each check, which the check refuses (95_test_vectors.md 2.8) -/

theorem test_unassigned_opcode_refused : CmdWord.opcodeAssigned 0x9000 = false ∧ CmdWord.legal 0x9000 = false := by
  decide

theorem test_reserved_bit_refused : CmdWord.reservedZero 0x2800 = false ∧ CmdWord.legal 0x2800 = false := by decide

theorem test_alphabet_bit_refused : CmdWord.alphabetBitLegal 0x2100 = false ∧ CmdWord.legal 0x2100 = false := by
  decide

theorem test_low_byte_refused : CmdWord.lowByteLegal 0x6040 = false ∧ CmdWord.legal 0x6040 = false := by decide

theorem test_low_byte_of_rdStat_refused : CmdWord.lowByteLegal 0x8004 = false ∧ CmdWord.legal 0x8004 = false := by
  decide

/-! ### Decode: words written out bit by bit from the encoding column of 30_encoding.md R72 -/

theorem test_decode_nop : decode 0b0000000000000000 = .command .nop := by decide

theorem test_decode_encStart : decode 0b0001000100000000 = .command (.encStart true) := by decide

theorem test_decode_encByte : decode 0b0010000001001101 = .command (.encByte 0x4D) := by decide

theorem test_decode_encFinal : decode 0b0011000000000000 = .command .encFinal := by decide

theorem test_decode_decStart : decode 0b0100000000000000 = .command (.decStart false) := by decide

theorem test_decode_decSym : decode 0b0101000011111111 = .command (.decSym 0xFF) := by decide

theorem test_decode_lutFwd : decode 0b0110000100111110 = .command (.lutFwd true 62) := by decide

theorem test_decode_lutRev : decode 0b0111000111111111 = .command (.lutRev true 0xFF) := by decide

theorem test_decode_rdStat : decode 0b1000000000000011 = .command (.rdStat 3) := by decide

/-- 95_test_vectors.md 2.8: a row's word with one bit set that the row fixes at 0, given by its number. -/
theorem test_decode_reserved_bit :
    (∀ bit ∈ [0, 8, 9], decode (1 <<< bit) = .illegal) ∧
    (∀ bit ∈ [0, 9], decode (0x1000 ||| 1 <<< bit) = .illegal) ∧
    (∀ bit ∈ [8, 11], decode (0x2000 ||| 1 <<< bit) = .illegal) ∧
    (∀ bit ∈ [0, 8], decode (0x3000 ||| 1 <<< bit) = .illegal) ∧
    decode (0x4000 ||| 1 <<< 0) = .illegal ∧
    decode (0x5000 ||| 1 <<< 8) = .illegal ∧
    (∀ bit ∈ [6, 7], decode (0x6000 ||| 1 <<< bit) = .illegal) ∧
    (∀ bit ∈ [2, 8], decode (0x8000 ||| 1 <<< bit) = .illegal) := by decide

/-- 95_test_vectors.md 2.8: the unassigned opcodes, with the other bits all 0 and all 1. -/
theorem test_decode_unassigned_opcode : ∀ op : BitVec 4, 9 ≤ op →
    decode (op ++ (0x000 : BitVec 12)) = .illegal ∧ decode (op ++ (0xFFF : BitVec 12)) = .illegal := by decide

theorem test_decodeTableWord : decodeTableWord 16 0x5054 = some (.decSym 0x54) ∧ decodeTableWord 16 0x5100 = none := by
  decide

/-! ### The tables: the entries that the document's own examples and vectors fix (41_alphabet_lut.md R103,
95_test_vectors.md 2.1) -/

/-- R103: `T` = 19, `W` = 22, `F` = 5, `u` = 46, `Q` = 16, in both alphabets. -/
theorem test_fwd_of_the_worked_examples (u : Bool) :
    [19, 22, 5, 46, 16].map (fun i => Char.ofNat (fwdEntry u i).toNat) = ['T', 'W', 'F', 'u', 'Q'] := by
  cases u <;> decide

/-- 95_test_vectors.md 2.1: the ends of the four runs of the standard alphabet. -/
theorem test_fwd_run_ends :
    [0, 25, 26, 51, 52, 61, 62, 63].map (fun i => Char.ofNat (fwdEntry false i).toNat) =
      ['A', 'Z', 'a', 'z', '0', '9', '+', '/'] := by decide

/-! ### The commands (95_test_vectors.md 2.1, 2.2, 2.5, 2.7) -/

theorem test_nop : next? (exec .nop (encAt .active false .two 0x04 2)) = some (encAt .active false .two 0x04 2) := by
  decide

/-- Row V3: a restart in the middle of a group emits nothing. -/
theorem test_encStart_mid_group :
    encView (exec (.encStart false) (encAt .active false .one 0x10 1)) = some ([], 0x0800, 0) := by decide

/-- Row V4: ENC_START after DONE. -/
theorem test_encStart_after_done :
    encView (exec (.encStart true) (encAt .done false .zero 0x00 8)) = some ([], 0x0C00, 0) := by decide

/-- Row V11: two symbols at phase 2. -/
theorem test_encByte_two_symbols :
    encView (exec (.encByte 0x6E) (encAt .active false .two 0x04 2)) = some ([0x46, 0x75], 0x0800, 4) := by decide

/-- Row V13: a full line gets its newline before the next symbol. -/
theorem test_encByte_full_line :
    encView (exec (.encByte 0x00) (encAt .active false .zero 0x00 60)) = some ([0x0A, 0x41], 0x0900, 1) := by decide

/-- Row V18: symbol and two padding bytes. -/
theorem test_encFinal_pads :
    encView (exec .encFinal (encAt .active false .one 0x10 1)) = some ([0x51, 0x3D, 0x3D], 0x1000, 4) := by decide

/-- Row V22: no trailing newline at a full line. -/
theorem test_encFinal_full_line :
    encView (exec .encFinal (encAt .active false .zero 0x00 60)) = some ([], 0x1000, 60) := by decide

/-- Row W3: a restart drops the leftover bits. -/
theorem test_decStart_drops_bits : decView (exec (.decStart false) (decAt .active false .two 0x4C)) =
    some ([], 0x1000) := by decide

/-- Row W21: phase 4 in the URL-safe alphabet. -/
theorem test_decSym_phase_four : decView (exec (.decSym 0x38) (decAt .active true .four 0xF0)) =
    some ([0xFF], 0x1E00) := by decide

/-- Row W18: the standard decoder skips a URL-only symbol. -/
theorem test_decSym_skips_other_alphabet : decView (exec (.decSym 0x2D) (decAt .active false .zero 0x00)) =
    some ([], 0x1000) := by decide

theorem test_lutFwd : (next? (exec (.lutFwd true 62) State.reset)).map State.rspO = some [0x002D] := by decide

theorem test_lutRev :
    (next? (exec (.lutRev false 0x2F) State.reset)).map State.rspO = some [0x003F] ∧
    (next? (exec (.lutRev true 0x2F) State.reset)).map State.rspO = some [0x0040] := by decide

/-- 44_control.md R171, example: ENC_STATUS after ENC_START std and ENC_BYTE 0x4D. -/
theorem test_rdStat_encStatus :
    (next? (exec (.rdStat 0) (encAt .active false .one 0x10 1))).map State.rspO = some [0x0910] := by decide

/-- 95_test_vectors.md 2.7: DEC_STATUS after DEC_START url and DEC_SYM `-`. -/
theorem test_rdStat_decStatus :
    (next? (exec (.rdStat 2) (decAt .active true .two 0xF8))).map State.rspO = some [0x1AF8] := by decide

/-! ### Steps: faults, priority, reset, fetch (95_test_vectors.md 2.8, 2.9) -/

/-- 0x2100 from reset raises ILL only. -/
theorem test_step_illegal_first :
    (next? (step (State.reset.withFetchWord 16 0x2100))).map errStatus = some 0x0001 := by decide

/-- ENC_BYTE from reset raises SEQ_ENC. -/
theorem test_step_seqEnc :
    (next? (step (State.reset.withFetchWord 16 0x2000))).map errStatus = some 0x0002 := by decide

/-- DEC_SYM from reset raises SEQ_DEC. -/
theorem test_step_seqDec :
    (next? (step (State.reset.withFetchWord 16 0x5041))).map errStatus = some 0x0004 := by decide

/-- A reset request abandons an open stream without output and clears the flags. -/
theorem test_step_reset :
    next? (step { encAt .active false .one 0x10 1 with
      err := { ill := true, seqEnc := true, seqDec := true }, encO := [0x54], hostIn := [.reset] }) =
      some { State.reset with encO := [0x54] } := by decide

/-! ### The assembler (30_encoding.md R76, R77, R78) -/

theorem test_assemble_lut : Assembler.assemble "LUT_REV std, '/'".toList = some [0x702F] := by decide

theorem test_assemble_pseudo : Assembler.assemble "DECODE url, ['T', 0x0A]".toList =
    some [0x4100, 0x5054, 0x500A] := by decide

/-! ### Witnesses: the hypotheses of the statements can be met -/

/-- A state in which one command word is presented. -/
def withWord (s : State) (w : Word) : State := { s with hostIn := [.command w] }

/-- An aligned, legal, full line at phase 0: the boundary of R125. -/
def fullLine : State := encAt .active false .zero 0x00 60

/-- The last aligned, legal line position of phase 2. -/
def lastTwo : State := encAt .active false .two 0x3C 58

/-- The last aligned, legal line position of phase 1. -/
def lastOne : State := encAt .active false .one 0x30 57

theorem fullLine_legal : Legal fullLine := ⟨rfl, ⟨by decide, by decide⟩, rfl⟩

theorem lastTwo_legal : Legal lastTwo := ⟨show (0x3C : Byte) &&& 0xC3 = 0 by decide, ⟨by decide, by decide⟩, rfl⟩

theorem lastOne_legal : Legal lastOne := ⟨show (0x30 : Byte) &&& 0xCF = 0 by decide, ⟨by decide, by decide⟩, rfl⟩

theorem fullLine_aligned : GroupAligned fullLine := fun _ => by decide

theorem lastTwo_aligned : GroupAligned lastTwo := fun _ => by decide

theorem lastOne_aligned : GroupAligned lastOne := fun _ => by decide

theorem witness_EncodeOfDecodedWordIsTheWord : decode 0x613E = .command (.lutFwd true 62) := by decide

/-- One word for each arm of the statement, with its operands at their largest values. -/
theorem witness_OperandsAreTheWordsFields :
    decode 0x0000 = .command .nop ∧ decode 0x1100 = .command (.encStart true) ∧
    decode 0x20FF = .command (.encByte 0xFF) ∧ decode 0x3000 = .command .encFinal ∧
    decode 0x4100 = .command (.decStart true) ∧ decode 0x50FF = .command (.decSym 0xFF) ∧
    decode 0x613F = .command (.lutFwd true 63) ∧ decode 0x71FF = .command (.lutRev true 0xFF) ∧
    decode 0x8003 = .command (.rdStat 3) := by decide

/-- A line that assembles, tokens of each shape that assemble, and numbers on both sides of each bound. -/
theorem witness_AssembledWordsAreLegal :
    Assembler.assemble "ENC_BYTE 255".toList = some [0x20FF] ∧
    Assembler.commands [.word "NOP".toList] = some [.nop] ∧
    Assembler.commands [.word "DEC_START".toList, .word "url".toList] = some [.decStart true] ∧
    Assembler.commands [.word "LUT_FWD".toList, .word "std".toList, .comma, .word ['5']] = some [.lutFwd false 5] ∧
    Assembler.commands [.word "DECODE".toList, .word "std".toList, .comma, .openList, .closeList] =
      some [.decStart false] ∧
    Assembler.decimal ['2', '5', '6'] = some 256 ∧ Assembler.decimal ['2', '5', '5'] = some 255 ∧
    Assembler.decimal ['6', '4'] = some 64 ∧ Assembler.decimal ['6', '3'] = some 63 ∧
    Assembler.decimal ['4'] = some 4 ∧ Assembler.decimal ['3'] = some 3 ∧
    Assembler.Token.word ['2', '5', '6'] ∈ [Assembler.Token.word ['2', '5', '6'], .closeList] := by decide

theorem witness_WordDecodesExactlyByItsRow :
    decode 0x9000 = .illegal ∧ (withWord State.reset 0x9000).hostIn = .command 0x9000 :: [] := by decide

theorem witness_StepRunsTheDecodedCommand :
    (withWord State.reset 0x1000).hostIn = .command 0x1000 :: [] ∧ decode 0x1000 = .command (.encStart false) := by
  decide

/-- Both grounds of R182: an unassigned opcode, a reserved bit. -/
theorem witness_IllegalWordSetsOnlyIll :
    (withWord State.reset 0xFFFF).hostIn = .command 0xFFFF :: [] ∧ decode 0xFFFF = .illegal ∧
    CmdWord.legal 0xFFFF = false ∧ CmdWord.legal 0x2100 = false := by decide

/-- IDLE and DONE, and both commands. -/
theorem witness_EncoderCommandOutOfSequenceSetsOnlySeqEnc :
    State.reset.enc.state ≠ .active ∧ (encAt .done false .zero 0 4).enc.state ≠ .active ∧
    (Instr.encFinal = .encFinal ∨ ∃ b, Instr.encFinal = .encByte b) ∧
    (Instr.encByte 0 = .encFinal ∨ ∃ b, Instr.encByte 0 = .encByte b) :=
  ⟨by decide, by decide, .inl rfl, .inr ⟨0, rfl⟩⟩

theorem witness_DecoderSymbolOutOfSequenceSetsOnlySeqDec : State.reset.dec.state ≠ .active := by decide

/-- For each clause: an illegal word, a legal word, a word that raises SEQ_ENC and one that raises SEQ_DEC. -/
theorem witness_AtMostOneFaultPerCommand :
    (∃ t, step (withWord State.reset 0x2100) = .next t) ∧ CmdWord.legal 0x2100 = false ∧
    (∃ t, step (withWord State.reset 0x2000) = .next t ∧ t.err.seqEnc ≠ State.reset.err.seqEnc) ∧
    CmdWord.legal 0x2000 = true ∧
    (∃ t, step (withWord State.reset 0x5000) = .next t ∧ t.err.seqDec ≠ State.reset.err.seqDec) :=
  ⟨⟨_, rfl⟩, by decide, ⟨_, rfl, by decide⟩, by decide, ⟨_, rfl, by decide⟩⟩

/-- Every flag set, and a START presented, which clears none. -/
theorem witness_NoCommandClearsAFlag (f : Fault) :
    ∃ s t, s.hostIn = .command 0x1000 :: [] ∧ step s = .next t ∧ s.err.flag f = true :=
  ⟨withWord { State.reset with err := { ill := true, seqEnc := true, seqDec := true } } 0x1000, _, rfl, rfl,
    by cases f <;> rfl⟩

theorem witness_ErrOutputIsTheStickyOrOfTheFlags :
    ∃ s t v w, s.hostIn = .command 0x0000 :: [] ∧ step s = .next t ∧ errO s = true ∧
      v.hostIn = .reset :: [] ∧ step v = .next w :=
  ⟨withWord { State.reset with err := { ill := true, seqEnc := false, seqDec := false } } 0x0000, _,
    { State.reset with hostIn := [.reset] }, _, rfl, rfl, rfl, rfl, rfl⟩

theorem witness_NoFaultAtTheEndMeansNoFaultAnywhere :
    ∃ t v, HostEvent.reset ∉ (withWord State.reset 0x1000).hostIn.take 1 ∧ 0 ≤ 1 ∧
      steps 1 (withWord State.reset 0x1000) = .next t ∧ steps 0 (withWord State.reset 0x1000) = .next v ∧
      noFaultRecorded t :=
  ⟨_, _, by decide, by decide, rfl, rfl, rfl⟩

theorem witness_NoDataByteCausesAFault :
    fullLine.enc.state = .active ∧ (decAt .active false .six 0x40).dec.state = .active ∧
    (∀ i : Sym, fwdEntry (decAt .active false .six 0x40).dec.url i ≠ 0x80) := by decide

theorem witness_StepWithNothingPresentedWaits : State.reset.hostIn = [] := rfl

theorem witness_StepTakesExactlyOneEvent : ∃ t, step (withWord lastTwo 0x20FF) = .next t := ⟨_, rfl⟩

theorem witness_ResetRequestRestoresEveryRegister :
    { fullLine with hostIn := [HostEvent.reset] }.hostIn = .reset :: [] := rfl

theorem witness_EveryStepKeepsLegalStates :
    ∃ t, Legal (withWord lastTwo 0x20FF) ∧ step (withWord lastTwo 0x20FF) = .next t :=
  ⟨_, ⟨lastTwo_legal.1, lastTwo_legal.2, lastTwo_legal.3⟩, rfl⟩

theorem witness_ReachableStatesAreLegal :
    ∃ t, steps 2 { State.reset with hostIn := [.command 0x1000, .command 0x204D] } = .next t := ⟨_, rfl⟩

theorem witness_EveryStepKeepsLineAndGroupAligned :
    ∃ t, GroupAligned (withWord fullLine 0x2000) ∧ step (withWord fullLine 0x2000) = .next t :=
  ⟨_, fullLine_aligned, rfl⟩

theorem witness_EveryStepKeepsTheLifeCycle :
    ∃ t, LifeCycle (withWord State.reset 0x1000) ∧ step (withWord State.reset 0x1000) = .next t :=
  ⟨_, ⟨fun _ => rfl, fun _ => rfl, fun _ => rfl⟩, rfl⟩

/-- Each of the three ways to change ENC.STATE. -/
theorem witness_OnlyStartFinalAndResetWriteEncoderState :
    (∃ t, step (withWord State.reset 0x1000) = .next t ∧ t.enc.state ≠ State.reset.enc.state) ∧
    (∃ t, step (withWord fullLine 0x3000) = .next t ∧ t.enc.state ≠ fullLine.enc.state) ∧
    (∃ t, step { fullLine with hostIn := [.reset] } = .next t ∧ t.enc.state ≠ fullLine.enc.state) :=
  ⟨⟨_, rfl, by decide⟩, ⟨_, rfl, by decide⟩, ⟨_, rfl, by decide⟩⟩

theorem witness_OnlyStartAndResetWriteTheAlphabets :
    ∃ t, exec .encFinal lastTwo = .next t ∧ (∀ u, Instr.encFinal ≠ .encStart u) ∧
      (∀ u, Instr.encFinal ≠ .decStart u) :=
  ⟨_, rfl, fun _ h => (nomatch h), fun _ h => (nomatch h)⟩

theorem witness_OutputStreamsOnlyGrow : ∃ t, step (withWord fullLine 0x2000) = .next t := ⟨_, rfl⟩

/-- The boundary line positions of each phase, and one instruction of each query kind. -/
theorem witness_EmitCountsPerCommand :
    (fullLine.enc.state = .active ∧ Legal fullLine ∧ GroupAligned fullLine) ∧
    (lastOne.enc.state = .active ∧ Legal lastOne ∧ GroupAligned lastOne) ∧
    (lastTwo.enc.state = .active ∧ Legal lastTwo ∧ GroupAligned lastTwo) ∧
    (decAt .active false .six 0x40).dec.state = .active ∧
    (∃ u ix, Instr.lutFwd true 63 = .lutFwd u ix) ∧ (∃ u x, Instr.lutRev true 0xFF = .lutRev u x) ∧
    (∃ sel, Instr.rdStat 3 = .rdStat sel) :=
  ⟨⟨rfl, fullLine_legal, fullLine_aligned⟩, ⟨rfl, lastOne_legal, lastOne_aligned⟩,
    ⟨rfl, lastTwo_legal, lastTwo_aligned⟩, rfl, ⟨_, _, rfl⟩, ⟨_, _, rfl⟩, ⟨_, rfl⟩⟩

theorem witness_OnlyCompletingSymbolsReachTheDecoderOutput :
    ∃ t, step (withWord (decAt .active false .six 0x40) 0x5075) = .next t ∧
      t.decO ≠ (withWord (decAt .active false .six 0x40) 0x5075).decO :=
  ⟨_, rfl, by decide⟩

/-- An interleaving of both engines' commands, and each engine's own commands alone. -/
theorem witness_EnginesAreBlindToInterleavedCommands :
    (∃ t, presents { State.reset with hostIn := presented [.encStart false, .decStart true, .encByte 0x4D] }
        [.encStart false, .decStart true, .encByte 0x4D] [] ∧
      steps 3 { State.reset with hostIn := presented [.encStart false, .decStart true, .encByte 0x4D] } = .next t) ∧
    (∃ t, steps 2 { State.reset with hostIn := presented [.encStart false, .encByte 0x4D] } = .next t) ∧
    (∃ t, steps 1 { State.reset with hostIn := presented [.decStart true] } = .next t) :=
  ⟨⟨_, (List.append_nil _).symm, rfl⟩, ⟨_, rfl⟩, ⟨_, rfl⟩⟩

theorem witness_ReverseTableInvertsForwardTable :
    (∀ i : Sym, romFwd (fwdAddr false i) ≠ 0x0A) ∧ (∀ i : Sym, romFwd (fwdAddr true i) ≠ 0xFF) := by decide

theorem witness_SixtyFourRecognizedBytesPerAlphabet : (0x80 : Byte) ≤ 0x80 ∧ (0x80 : Byte) ≤ 0xFF := by decide

theorem witness_LutFwdRespondsWithTheSymbolByte :
    fwdEntry false 62 ≠ fwdEntry true 62 ∧ fwdEntry false 63 ≠ fwdEntry true 63 ∧
    (0x6040 : Word) &&& 0xF000 = 0x6000 ∧ (0x6040 : Word) &&& 0x0EC0 ≠ 0 := by decide

theorem witness_LutRevRespondsWithTheIndexOrNotFound :
    (∀ i : Sym, fwdEntry true i ≠ 0x2F) ∧ (0x7200 : Word) &&& 0xF000 = 0x7000 ∧ (0x7200 : Word) &&& 0x0E00 ≠ 0 := by
  decide

theorem witness_EncStartOpensAStream :
    (∃ t, exec (.encStart true) lastTwo = .next t) ∧
    (0x1001 : Word) &&& 0xF000 = 0x1000 ∧ (0x1001 : Word) &&& 0x0EFF ≠ 0 :=
  ⟨⟨_, rfl⟩, by decide, by decide⟩

/-- A state for each phase, one outside ACTIVE, and an illegal word. -/
theorem witness_EncByteConsumesOneByte :
    (fullLine.enc.state = .active ∧ fullLine.enc.phase = .zero) ∧
    (lastOne.enc.state = .active ∧ lastOne.enc.phase = .one) ∧
    (lastTwo.enc.state = .active ∧ lastTwo.enc.phase = .two) ∧
    (encAt .done false .zero 0 4).enc.state ≠ .active ∧
    (0x2100 : Word) &&& 0xF000 = 0x2000 ∧ (0x2100 : Word) &&& 0x0F00 ≠ 0 := by decide

theorem witness_EncFinalFlushesPadsAndEnds :
    (fullLine.enc.state = .active ∧ fullLine.enc.phase = .zero) ∧
    (lastOne.enc.state = .active ∧ lastOne.enc.phase = .one ∧ Legal lastOne ∧ GroupAligned lastOne) ∧
    (lastTwo.enc.state = .active ∧ lastTwo.enc.phase = .two ∧ Legal lastTwo ∧ GroupAligned lastTwo) ∧
    (encAt .done true .zero 0 0).enc.state ≠ .active ∧
    (0x3001 : Word) &&& 0xF000 = 0x3000 ∧ (0x3001 : Word) &&& 0x0FFF ≠ 0 :=
  ⟨⟨rfl, rfl⟩, ⟨rfl, rfl, lastOne_legal, lastOne_aligned⟩, ⟨rfl, rfl, lastTwo_legal, lastTwo_aligned⟩,
    by decide, by decide, by decide⟩

theorem witness_EncFinalEmitsThroughTheLineWrap : (encAt .active false .one 0x00 63).enc.state = .active := rfl

/-- A full line at phase 0, where the newline is emitted. -/
theorem witness_NewlineOnlyBeforeAGroupOnAFullLine :
    ∃ t, Legal fullLine ∧ GroupAligned fullLine ∧ exec (.encByte 0x00) fullLine = .next t ∧
      t.encO = fullLine.encO ++ [Config.newline, 0x41] :=
  ⟨_, fullLine_legal, fullLine_aligned, rfl, by decide⟩

/-- A one-byte encode stream is presented and runs: the premise of the statements about encode streams. -/
theorem witness_encode_stream (u : Bool) :
    ∃ t, presents { State.reset with hostIn := presented (encodeStream u [0x4D]) } (encodeStream u [0x4D]) [] ∧
      steps (encodeStream u [0x4D]).length { State.reset with hostIn := presented (encodeStream u [0x4D]) } =
        .next t := by
  cases u <;> exact ⟨_, (List.append_nil _).symm, rfl⟩

/-- Streams of 0, 1 and 2 bytes mod 3 run, and the 46-byte input is one of the byte sequences: the premises of the
clauses about padding and the line wrap. -/
theorem witness_PaddingAndLineWrapOfStandardStreams :
    (∃ t, steps 2 { State.reset with hostIn := presented (encodeStream false []) } = .next t) ∧
    (∃ t, steps 3 { State.reset with hostIn := presented (encodeStream false [0x4D]) } = .next t) ∧
    (∃ t, steps 4 { State.reset with hostIn := presented (encodeStream false [0x4D, 0x61]) } = .next t) ∧
    (List.replicate 46 (0 : Byte)).length = 46 :=
  ⟨⟨_, rfl⟩, ⟨_, rfl⟩, ⟨_, rfl⟩, List.length_replicate⟩

/-- Two decode streams that differ in noise only, presented: the premise of the statements about decode streams. -/
theorem witness_decode_streams :
    ([0x54, 0x51] : List Byte).filter (Reference.recognized false) =
      ([0x54, 0x0A, 0x51, 0x3D] : List Byte).filter (Reference.recognized false) ∧
    (∃ t, presents { State.reset with hostIn := presented (decodeStream false [0x54, 0x51]) }
        (decodeStream false [0x54, 0x51]) [] ∧
      steps 3 { State.reset with hostIn := presented (decodeStream false [0x54, 0x51]) } = .next t) ∧
    (∃ t, steps 5 { State.reset with hostIn := presented (decodeStream false [0x54, 0x0A, 0x51, 0x3D]) } = .next t) :=
  ⟨by decide, ⟨_, (List.append_nil _).symm, rfl⟩, ⟨_, rfl⟩⟩

/-- All the premises together: the byte 0xFB encodes to `+w==`, whose `+` only the standard alphabet contains, and that
output is presented to a decoder of either alphabet. -/
theorem witness_DecodingAnEncodingGivesTheBytesBack :
    let out : List Byte := [0x2B, 0x77, 0x3D, 0x3D]
    ∃ s t v v' : State,
      presents s (encodeStream false [0xFB]) [] ∧ steps (encodeStream false [0xFB]).length s = .next t ∧
      t.encO = s.encO ++ out ∧
      presents v (decodeStream false out) [] ∧ presents v' (decodeStream (!false) out) [] ∧
      ((62 : Sym) ∈ Reference.symbols [0xFB] ∨ (63 : Sym) ∈ Reference.symbols [0xFB]) :=
  ⟨{ State.reset with hostIn := presented (encodeStream false [0xFB]) }, _,
    { State.reset with hostIn := presented (decodeStream false [0x2B, 0x77, 0x3D, 0x3D]) },
    { State.reset with hostIn := presented (decodeStream true [0x2B, 0x77, 0x3D, 0x3D]) },
    (List.append_nil _).symm, rfl, by decide, (List.append_nil _).symm, (List.append_nil _).symm, by decide⟩

/-- An index in each run of the table and at each of its ends. -/
theorem witness_ForwardTableHoldsTheStandardAlphabets :
    (25 : Sym).toNat ≤ 25 ∧ (26 ≤ (26 : Sym).toNat ∧ (51 : Sym).toNat ≤ 51) ∧
    (52 ≤ (52 : Sym).toNat ∧ (61 : Sym).toNat ≤ 61) := by decide

theorem witness_DecStartOpensAStream :
    (∃ t, exec (.decStart false) (decAt .active true .two 0x4C) = .next t) ∧
    (0x4001 : Word) &&& 0xF000 = 0x4000 ∧ (0x4001 : Word) &&& 0x0EFF ≠ 0 :=
  ⟨⟨_, rfl⟩, by decide, by decide⟩

theorem witness_DecSymConsumesOneByte :
    (decAt .active false .zero 0).dec.state = .active ∧
    (∀ i : Sym, fwdEntry (decAt .active false .zero 0).dec.url i ≠ 0x3D) ∧
    State.reset.dec.state ≠ .active ∧
    (0x5100 : Word) &&& 0xF000 = 0x5000 ∧ (0x5100 : Word) &&& 0x0F00 ≠ 0 := by decide

theorem witness_NopChangesNothing : (0x0001 : Word) &&& 0xF000 = 0x0000 ∧ (0x0001 : Word) ≠ 0x0000 := by decide

theorem witness_RdStatRespondsWithTheStatusRegister :
    (0x8004 : Word) &&& 0xF000 = 0x8000 ∧ (0x8004 : Word) &&& 0x0FFC ≠ 0 := by decide

end Sys2Proof.Tests
end

section
/-! SUPPORT. What the engines' operations leave in each register, said once: the encoder's registers after a byte and
after a flush, the decoder's after a byte, the fault flags after a fault. -/

namespace Sys2Proof.Machine

/-! ### The frames of the engines' larger steps, field by field -/

section
variable (x : Byte) (s : State)

@[simp] theorem encodeByte_dec : (encodeByte x s).dec = s.dec := (encodeByte_frame x s).1
@[simp] theorem encodeByte_err : (encodeByte x s).err = s.err := (encodeByte_frame x s).2.1
@[simp] theorem encodeByte_decO : (encodeByte x s).decO = s.decO := (encodeByte_frame x s).2.2.1
@[simp] theorem encodeByte_rspO : (encodeByte x s).rspO = s.rspO := (encodeByte_frame x s).2.2.2.1

@[simp] theorem flushGroup_dec : (flushGroup s).dec = s.dec := (flushGroup_frame s).1
@[simp] theorem flushGroup_err : (flushGroup s).err = s.err := (flushGroup_frame s).2.1
@[simp] theorem flushGroup_decO : (flushGroup s).decO = s.decO := (flushGroup_frame s).2.2.1
@[simp] theorem flushGroup_rspO : (flushGroup s).rspO = s.rspO := (flushGroup_frame s).2.2.2.1

@[simp] theorem decodeByte_enc : (decodeByte x s).enc = s.enc := (decodeByte_frame x s).1
@[simp] theorem decodeByte_err : (decodeByte x s).err = s.err := (decodeByte_frame x s).2.1
@[simp] theorem decodeByte_encO : (decodeByte x s).encO = s.encO := (decodeByte_frame x s).2.2.1
@[simp] theorem decodeByte_rspO : (decodeByte x s).rspO = s.rspO := (decodeByte_frame x s).2.2.2.1

end

/-! ### The encoder's registers -/

/-- The encoder after one symbol or padding byte has been emitted: only `ENC.LINE` moves (42_encoder.md R121). -/
def Enc.counted (e : Enc) : Enc := { e with line := Reference.lineAfter e.url e.line }

@[simp] theorem Enc.counted_state (e : Enc) : e.counted.state = e.state := rfl
@[simp] theorem Enc.counted_url (e : Enc) : e.counted.url = e.url := rfl
@[simp] theorem Enc.counted_phase (e : Enc) : e.counted.phase = e.phase := rfl
@[simp] theorem Enc.counted_carry (e : Enc) : e.counted.carry = e.carry := rfl

/-- In a URL-safe stream no character is counted. -/
theorem Enc.counted_of_url {e : Enc} (h : e.url = true) : e.counted = e := by
  obtain ⟨st, u, ph, ca, l⟩ := e
  cases h
  rfl

@[simp] theorem emitChar_enc (ch : Byte) (s : State) : (emitChar ch s).enc = s.enc.counted := by
  rw [emitChar_eq]
  rfl

@[simp] theorem emitSym_enc (i : Sym) (s : State) : (emitSym i s).enc = s.enc.counted := by
  rw [emitSym_eq, emitChar_enc]

/-- The padding step counts one character in either alphabet, since a URL-safe stream counts none. -/
@[simp] theorem emitPad_enc (s : State) : (emitPad s).enc = s.enc.counted := by
  cases hu : s.enc.url with
  | false => rw [emitPad_std hu, emitChar_enc]
  | true => rw [emitPad_url hu, Enc.counted_of_url hu]

theorem encodeByte_enc_zero {s : State} (b : Byte) (h : s.enc.phase = .zero) :
    (encodeByte b s).enc = { s.enc.counted with carry := carryAtZero b, phase := .one } := by
  simp [encodeByte, h]

theorem encodeByte_enc_one {s : State} (b : Byte) (h : s.enc.phase = .one) :
    (encodeByte b s).enc = { s.enc.counted with carry := carryAtOne b, phase := .two } := by
  simp [encodeByte, h]

theorem encodeByte_enc_two {s : State} (b : Byte) (h : s.enc.phase = .two) :
    (encodeByte b s).enc = { s.enc.counted.counted with carry := 0, phase := .zero } := by
  simp [encodeByte, h]

theorem flushGroup_enc_zero {s : State} (h : s.enc.phase = .zero) : (flushGroup s).enc = s.enc := by
  simp [flushGroup, h]

theorem flushGroup_enc_one {s : State} (h : s.enc.phase = .one) :
    (flushGroup s).enc = s.enc.counted.counted.counted := by
  simp [flushGroup, h]

theorem flushGroup_enc_two {s : State} (h : s.enc.phase = .two) : (flushGroup s).enc = s.enc.counted.counted := by
  simp [flushGroup, h]

/-- A property of the encoder that counting a character keeps, a flush keeps. -/
theorem flushGroup_enc_induction {P : Enc → Prop} (hcount : ∀ e, P e → P e.counted) {s : State} (h : P s.enc) :
    P (flushGroup s).enc := by
  cases hp : s.enc.phase with
  | zero => rw [flushGroup_enc_zero hp]; exact h
  | one => rw [flushGroup_enc_one hp]; exact hcount _ (hcount _ (hcount _ h))
  | two => rw [flushGroup_enc_two hp]; exact hcount _ (hcount _ h)

@[simp] theorem flushGroup_state (s : State) : (flushGroup s).enc.state = s.enc.state :=
  flushGroup_enc_induction (P := fun e => e.state = s.enc.state) (fun _ h => h) rfl

@[simp] theorem flushGroup_url (s : State) : (flushGroup s).enc.url = s.enc.url :=
  flushGroup_enc_induction (P := fun e => e.url = s.enc.url) (fun _ h => h) rfl

/-- A byte writes neither `ENC.STATE` nor `ENC.URL`. -/
theorem encodeByte_state_url (b : Byte) (s : State) :
    (encodeByte b s).enc.state = s.enc.state ∧ (encodeByte b s).enc.url = s.enc.url := by
  cases hp : s.enc.phase with
  | zero => rw [encodeByte_enc_zero b hp]; exact ⟨rfl, rfl⟩
  | one => rw [encodeByte_enc_one b hp]; exact ⟨rfl, rfl⟩
  | two => rw [encodeByte_enc_two b hp]; exact ⟨rfl, rfl⟩

/-! ### The decoder's registers -/

/-- A byte of an open decode stream is skipped or is one symbol. -/
theorem decodeByte_cases (x : Byte) (s : State) : decodeByte x s = s ∨ ∃ c, decodeByte x s = decodeSymbol c s := by
  cases hx : revNF (revEntry s.dec.url x) with
  | true => exact .inl (by simp [decodeByte, hx])
  | false => exact .inr ⟨revIDX (revEntry s.dec.url x), by simp [decodeByte, hx]⟩

theorem decodeSymbol_dec (c : Sym) (s : State) :
    (decodeSymbol c s).dec = { s.dec with phase := s.dec.phase.next, carry := decCarry s.dec.phase.next c } := by
  by_cases h : s.dec.phase = .zero <;> simp [decodeSymbol, h]

/-- A byte writes neither `DEC.STATE` nor `DEC.URL`. -/
theorem decodeByte_state_url (x : Byte) (s : State) :
    (decodeByte x s).dec.state = s.dec.state ∧ (decodeByte x s).dec.url = s.dec.url := by
  obtain h | ⟨c, h⟩ := decodeByte_cases x s
  · rw [h]; exact ⟨rfl, rfl⟩
  · rw [h, decodeSymbol_dec]; exact ⟨rfl, rfl⟩

/-! ### The fault flags -/

/-- Raising a fault sets its own flag and leaves the others (60_exceptions.md R181). -/
@[simp] theorem Err.flag_set (e : Err) (g f : Fault) : (e.set g).flag f = (e.flag f || decide (f = g)) := by
  cases g <;> cases f <;> simp [Err.set, Err.flag]

end Sys2Proof.Machine
end

section
/-! SUPPORT. What a command can do to each engine, to the flags and to the output streams, each the part of `exec_cases`
that concerns it, and the rule by which a property that every command keeps is kept by every step. -/

namespace Sys2Proof.Machine

/-- What a command does to the encoder: only ENC_START, and ENC_BYTE and ENC_FINAL in an open stream, write it. -/
theorem exec_enc_cases {i : Instr} {s t : State} (h : exec i s = .next t) :
    t.enc = s.enc ∨
    (∃ u, i = .encStart u ∧ t.enc = { Enc.reset with state := .active, url := u }) ∨
    (∃ b, i = .encByte b ∧ s.enc.state = .active ∧ t.enc = (encodeByte b s).enc) ∨
    (i = .encFinal ∧ s.enc.state = .active ∧
      t.enc = { (flushGroup s).enc with state := .done, phase := .zero, carry := 0 }) := by
  obtain ⟨-, rfl⟩ | ⟨u, hi, rfl⟩ | ⟨b, hi, hs, rfl⟩ | ⟨_, -, -, rfl⟩ | ⟨hi, hs, rfl⟩ | ⟨-, -, rfl⟩ | ⟨_, -, rfl⟩ |
    ⟨x, -, -, rfl⟩ | ⟨_, -, -, rfl⟩ | ⟨_, _, -, rfl⟩ | ⟨_, _, -, rfl⟩ | ⟨_, -, rfl⟩ := exec_cases h
  · exact .inl rfl
  · exact .inr (.inl ⟨u, hi, rfl⟩)
  · exact .inr (.inr (.inl ⟨b, hi, hs, rfl⟩))
  · exact .inl rfl
  · exact .inr (.inr (.inr ⟨hi, hs, rfl⟩))
  · exact .inl rfl
  · exact .inl rfl
  · exact .inl (decodeByte_enc x s)
  · exact .inl rfl
  · exact .inl rfl
  · exact .inl rfl
  · exact .inl rfl

/-- What a command does to the decoder: only DEC_START, and DEC_SYM in an open stream, write it. -/
theorem exec_dec_cases {i : Instr} {s t : State} (h : exec i s = .next t) :
    t.dec = s.dec ∨
    (∃ u, i = .decStart u ∧ t.dec = { Dec.reset with state := .active, url := u }) ∨
    (∃ x, i = .decSym x ∧ s.dec.state = .active ∧ t.dec = (decodeByte x s).dec) := by
  obtain ⟨-, rfl⟩ | ⟨_, -, rfl⟩ | ⟨b, -, -, rfl⟩ | ⟨_, -, -, rfl⟩ | ⟨-, -, rfl⟩ | ⟨-, -, rfl⟩ | ⟨u, hi, rfl⟩ |
    ⟨x, hi, hs, rfl⟩ | ⟨_, -, -, rfl⟩ | ⟨_, _, -, rfl⟩ | ⟨_, _, -, rfl⟩ | ⟨_, -, rfl⟩ := exec_cases h
  · exact .inl rfl
  · exact .inl rfl
  · exact .inl (encodeByte_dec b s)
  · exact .inl rfl
  · exact .inl (flushGroup_dec s)
  · exact .inl rfl
  · exact .inr (.inl ⟨u, hi, rfl⟩)
  · exact .inr (.inr ⟨x, hi, hs, rfl⟩)
  · exact .inl rfl
  · exact .inl rfl
  · exact .inl rfl
  · exact .inl rfl

/-- A command leaves the fault flags as they are or raises one fault. -/
theorem exec_err_cases {i : Instr} {s t : State} (h : exec i s = .next t) :
    t.err = s.err ∨ ∃ f, t.err = s.err.set f := by
  obtain ⟨-, rfl⟩ | ⟨_, -, rfl⟩ | ⟨b, -, -, rfl⟩ | ⟨_, -, -, rfl⟩ | ⟨-, -, rfl⟩ | ⟨-, -, rfl⟩ | ⟨_, -, rfl⟩ |
    ⟨x, -, -, rfl⟩ | ⟨_, -, -, rfl⟩ | ⟨_, _, -, rfl⟩ | ⟨_, _, -, rfl⟩ | ⟨_, -, rfl⟩ := exec_cases h
  · exact .inl rfl
  · exact .inl rfl
  · exact .inl (encodeByte_err b s)
  · exact .inr ⟨.seqEnc, rfl⟩
  · exact .inl (flushGroup_err s)
  · exact .inr ⟨.seqEnc, rfl⟩
  · exact .inl rfl
  · exact .inl (decodeByte_err x s)
  · exact .inr ⟨.seqDec, rfl⟩
  · exact .inl rfl
  · exact .inl rfl
  · exact .inl rfl

end Sys2Proof.Machine
end

section
/-! SUPPORT. The output streams only grow (10_state.md R39): every operation, command and step appends. -/

namespace Sys2Proof.Machine

/-- What `s` has emitted on each port is the beginning of what `t` has emitted there (10_state.md R39). -/
structure StreamsGrow (s t : State) : Prop where
  encO : s.encO <+: t.encO
  decO : s.decO <+: t.decO
  rspO : s.rspO <+: t.rspO

theorem StreamsGrow.of_eq {s t : State} (he : t.encO = s.encO) (hd : t.decO = s.decO) (hr : t.rspO = s.rspO) :
    StreamsGrow s t :=
  ⟨by rw [he], by rw [hd], by rw [hr]⟩

theorem emitChar_encO_grows (ch : Byte) (s : State) : s.encO <+: (emitChar ch s).encO := by
  rw [emitChar_encO]
  exact List.prefix_append _ _

theorem emitSym_encO_grows (i : Sym) (s : State) : s.encO <+: (emitSym i s).encO := by
  rw [emitSym_eq]
  exact emitChar_encO_grows _ s

theorem emitPad_encO_grows (s : State) : s.encO <+: (emitPad s).encO := by
  cases hu : s.enc.url with
  | false => rw [emitPad_std hu]; exact emitChar_encO_grows _ s
  | true => rw [emitPad_url hu]

theorem encodeByte_encO_grows (b : Byte) (s : State) : s.encO <+: (encodeByte b s).encO := by
  cases hp : s.enc.phase with
  | zero => simpa [encodeByte, hp] using emitSym_encO_grows (symAtZero b) s
  | one => simpa [encodeByte, hp] using emitSym_encO_grows (symAtOne s.enc.carry b) s
  | two =>
    simpa [encodeByte, hp] using
      (emitSym_encO_grows (symAtTwo s.enc.carry b) s).trans (emitSym_encO_grows (symLast b) _)

theorem flushGroup_encO_grows (s : State) : s.encO <+: (flushGroup s).encO := by
  have hsym := emitSym_encO_grows (symFlush s.enc.carry) s
  cases hp : s.enc.phase with
  | zero => simp [flushGroup, hp]
  | one => simpa [flushGroup, hp] using (hsym.trans (emitPad_encO_grows _)).trans (emitPad_encO_grows _)
  | two => simpa [flushGroup, hp] using hsym.trans (emitPad_encO_grows _)

theorem decodeSymbol_decO_grows (c : Sym) (s : State) : s.decO <+: (decodeSymbol c s).decO := by
  by_cases h : s.dec.phase = .zero <;> simp [decodeSymbol, h]

theorem decodeByte_decO_grows (x : Byte) (s : State) : s.decO <+: (decodeByte x s).decO := by
  obtain h | ⟨c, h⟩ := decodeByte_cases x s
  · rw [h]
  · rw [h]; exact decodeSymbol_decO_grows c s

theorem respond_grows (w : Word) (s : State) : StreamsGrow s (respond w s) :=
  ⟨List.prefix_rfl, List.prefix_rfl, List.prefix_append _ _⟩

theorem exec_grows {i : Instr} {s t : State} (h : exec i s = .next t) : StreamsGrow s t := by
  obtain ⟨-, rfl⟩ | ⟨_, -, rfl⟩ | ⟨b, -, -, rfl⟩ | ⟨_, -, -, rfl⟩ | ⟨-, -, rfl⟩ | ⟨-, -, rfl⟩ | ⟨_, -, rfl⟩ |
    ⟨x, -, -, rfl⟩ | ⟨_, -, -, rfl⟩ | ⟨_, _, -, rfl⟩ | ⟨_, _, -, rfl⟩ | ⟨_, -, rfl⟩ := exec_cases h
  · exact .of_eq rfl rfl rfl
  · exact .of_eq rfl rfl rfl
  · exact ⟨encodeByte_encO_grows b s, by simp, by simp⟩
  · exact .of_eq rfl rfl rfl
  · exact ⟨flushGroup_encO_grows s, by simp, by simp⟩
  · exact .of_eq rfl rfl rfl
  · exact .of_eq rfl rfl rfl
  · exact ⟨by simp, decodeByte_decO_grows x s, by simp⟩
  · exact .of_eq rfl rfl rfl
  · exact respond_grows _ s
  · exact respond_grows _ s
  · exact respond_grows _ s

theorem step_grows {s t : State} (h : step s = .next t) : StreamsGrow s t := by
  obtain ⟨-, rfl⟩ | ⟨_, -, rfl⟩ | ⟨_, rest, i, -, -, hx⟩ | ⟨_, _, -, -, rfl⟩ := step_cases h
  · exact .of_eq rfl rfl rfl
  · exact .of_eq rfl rfl rfl
  · obtain ⟨henc, hdec, hrsp⟩ := exec_grows hx
    exact ⟨henc, hdec, hrsp⟩
  · exact .of_eq rfl rfl rfl

end Sys2Proof.Machine
end

section
/-! SUPPORT. The legal states of 10_state.md R26, R27, R31 and the life cycle of R23, R28: what each operation does to
their parts, and that every command and every step keeps both. Both speak of the engines alone, so one rule
(`step_keeps`) carries them from commands to steps. -/

namespace Sys2Proof.Machine

/-- The rule for properties of the two engines: what holds of the reset state and is kept by every command is kept by
every step. -/
theorem step_keeps {P : State → Prop}
    (hengines : ∀ s t : State, t.enc = s.enc → t.dec = s.dec → P s → P t) (hreset : P State.reset)
    (hexec : ∀ i s t, P s → exec i s = .next t → P t) {s t : State} (hs : P s) (h : step s = .next t) : P t := by
  obtain ⟨-, rfl⟩ | ⟨_, -, rfl⟩ | ⟨_, rest, i, -, -, hx⟩ | ⟨_, _, -, -, rfl⟩ := step_cases h
  · exact hs
  · exact hengines State.reset _ rfl rfl hreset
  · exact hexec i (s.setHostIn rest) t (hengines s _ rfl rfl hs) hx
  · exact hengines s _ rfl rfl hs

/-! ### Legal carries and line counts -/

/-- The carry that a byte leaves at phase 0 holds bits 5 and 4 only (10_state.md R26). -/
theorem carryAtZero_legal (b : Byte) : carryAtZero b &&& 0xCF = 0 := by revert b; decide

/-- The carry that a byte leaves at phase 1 holds bits 5 to 2 only (10_state.md R26). -/
theorem carryAtOne_legal (b : Byte) : carryAtOne b &&& 0xC3 = 0 := by revert b; decide

/-- The carry that a symbol leaves is legal at the new phase (10_state.md R31). -/
theorem decCarry_legal (d : Dec) (p : DecPhase) (c : Sym) :
    decCarryLegal { d with phase := p, carry := decCarry p c } := by
  cases p with
  | zero => rfl
  | two => show decCarry .two c &&& 0x03 = 0; revert c; decide
  | four => show decCarry .four c &&& 0x0F = 0; revert c; decide
  | six => show decCarry .six c &&& 0x3F = 0; revert c; decide

/-- A full line is ended before the next character, so the count never passes 60 (10_state.md R27). -/
theorem lineAfter_le {l : BitVec 6} (h : l ≤ 60) : Reference.lineAfter false l ≤ 60 := by revert l; decide

theorem encLineLegal_counted {e : Enc} (h : encLineLegal e) : encLineLegal e.counted := by
  cases hu : e.url with
  | false =>
    have hle : e.counted.line ≤ 60 := by rw [Enc.counted, hu]; exact lineAfter_le h.1
    exact ⟨hle, fun htrue => absurd (hu.symm.trans htrue) Bool.false_ne_true⟩
  | true => rw [Enc.counted_of_url hu]; exact h

theorem encodeByte_encCarryLegal (b : Byte) (s : State) : encCarryLegal (encodeByte b s).enc := by
  cases hp : s.enc.phase with
  | zero => rw [encodeByte_enc_zero b hp]; exact carryAtZero_legal b
  | one => rw [encodeByte_enc_one b hp]; exact carryAtOne_legal b
  | two => rw [encodeByte_enc_two b hp]; rfl

theorem encodeByte_encLineLegal (b : Byte) {s : State} (h : encLineLegal s.enc) :
    encLineLegal (encodeByte b s).enc := by
  cases hp : s.enc.phase with
  | zero => rw [encodeByte_enc_zero b hp]; exact encLineLegal_counted h
  | one => rw [encodeByte_enc_one b hp]; exact encLineLegal_counted h
  | two => rw [encodeByte_enc_two b hp]; exact encLineLegal_counted (encLineLegal_counted h)

theorem flushGroup_encLineLegal {s : State} (h : encLineLegal s.enc) : encLineLegal (flushGroup s).enc :=
  flushGroup_enc_induction (P := encLineLegal) (fun _ => encLineLegal_counted) h

theorem decodeByte_decCarryLegal (x : Byte) {s : State} (h : decCarryLegal s.dec) :
    decCarryLegal (decodeByte x s).dec := by
  obtain hx | ⟨c, hx⟩ := decodeByte_cases x s
  · rw [hx]; exact h
  · rw [hx, decodeSymbol_dec]; exact decCarry_legal _ _ c

/-! ### Every command and every step keeps legal states -/

/-- A just opened encoder has a legal line count in either alphabet. -/
theorem encStart_encLineLegal (u : Bool) : encLineLegal { Enc.reset with state := .active, url := u } :=
  ⟨show (0 : BitVec 6) ≤ 60 by decide, fun _ => rfl⟩

theorem exec_encLegal {i : Instr} {s t : State} (hs : Legal s) (h : exec i s = .next t) :
    encCarryLegal t.enc ∧ encLineLegal t.enc := by
  obtain he | ⟨u, -, he⟩ | ⟨b, -, -, he⟩ | ⟨-, -, he⟩ := exec_enc_cases h <;> rw [he]
  · exact ⟨hs.encCarry, hs.encLine⟩
  · exact ⟨rfl, encStart_encLineLegal u⟩
  · exact ⟨encodeByte_encCarryLegal b s, encodeByte_encLineLegal b hs.encLine⟩
  · exact ⟨rfl, flushGroup_encLineLegal hs.encLine⟩

theorem exec_decLegal {i : Instr} {s t : State} (hs : Legal s) (h : exec i s = .next t) : decCarryLegal t.dec := by
  obtain hd | ⟨u, -, hd⟩ | ⟨x, -, -, hd⟩ := exec_dec_cases h <;> rw [hd]
  · exact hs.decCarry
  · exact rfl
  · exact decodeByte_decCarryLegal x hs.decCarry

/-- Legality speaks of the engines alone. -/
theorem Legal.of_engines_eq (s t : State) (he : t.enc = s.enc) (hd : t.dec = s.dec) (hs : Legal s) : Legal t :=
  ⟨he ▸ hs.encCarry, he ▸ hs.encLine, hd ▸ hs.decCarry⟩

theorem reset_legal : Legal State.reset :=
  ⟨rfl, ⟨by decide, fun _ => rfl⟩, rfl⟩

theorem exec_legal (i : Instr) (s t : State) (hs : Legal s) (h : exec i s = .next t) : Legal t := by
  obtain ⟨hcarry, hline⟩ := exec_encLegal hs h
  exact ⟨hcarry, hline, exec_decLegal hs h⟩

theorem step_legal (s t : State) (hs : Legal s) (h : step s = .next t) : Legal t :=
  step_keeps Legal.of_engines_eq reset_legal exec_legal hs h

/-! ### Every command and every step keeps the life cycle -/

/-- The life cycle speaks of the engines alone. -/
theorem LifeCycle.of_engines_eq (s t : State) (he : t.enc = s.enc) (hd : t.dec = s.dec) (hs : LifeCycle s) :
    LifeCycle t :=
  ⟨he ▸ hs.encIdle, he ▸ hs.encDone, hd ▸ hs.decIdle⟩

theorem reset_lifeCycle : LifeCycle State.reset :=
  ⟨fun _ => rfl, fun _ => rfl, fun _ => rfl⟩

theorem exec_encLifeCycle {i : Instr} {s t : State} (hs : LifeCycle s) (h : exec i s = .next t) :
    (t.enc.state = .idle → t.enc = Enc.reset) ∧ (t.enc.state = .done → t.enc.phase = .zero) := by
  obtain he | ⟨u, -, he⟩ | ⟨b, -, hact, he⟩ | ⟨-, -, he⟩ := exec_enc_cases h <;> rw [he]
  · exact ⟨hs.encIdle, hs.encDone⟩
  · exact ⟨fun hidle => (nomatch hidle), fun hdone => (nomatch hdone)⟩
  · rw [(encodeByte_state_url b s).1, hact]
    exact ⟨fun hidle => (nomatch hidle), fun hdone => (nomatch hdone)⟩
  · exact ⟨fun hidle => (nomatch hidle), fun _ => rfl⟩

theorem exec_decLifeCycle {i : Instr} {s t : State} (hs : LifeCycle s) (h : exec i s = .next t) :
    t.dec.state = .idle → t.dec = Dec.reset := by
  obtain hd | ⟨u, -, hd⟩ | ⟨x, -, hact, hd⟩ := exec_dec_cases h <;> rw [hd]
  · exact hs.decIdle
  · exact fun hidle => (nomatch hidle)
  · rw [(decodeByte_state_url x s).1, hact]
    exact fun hidle => (nomatch hidle)

theorem exec_lifeCycle (i : Instr) (s t : State) (hs : LifeCycle s) (h : exec i s = .next t) : LifeCycle t := by
  obtain ⟨hidle, hdone⟩ := exec_encLifeCycle hs h
  exact ⟨hidle, hdone, exec_decLifeCycle hs h⟩

theorem step_lifeCycle (s t : State) (hs : LifeCycle s) (h : step s = .next t) : LifeCycle t :=
  step_keeps LifeCycle.of_engines_eq reset_lifeCycle exec_lifeCycle hs h

end Sys2Proof.Machine
end

section
/-! CERTIFICATES. The obligations of 10_state.md. -/

namespace Sys2Proof.Machine

/-! ### What writes ENC.STATE, the alphabets and the flags -/

/-- A command changes `ENC.STATE` only as ENC_START or ENC_FINAL (10_state.md R23). -/
theorem exec_writes_encState {i : Instr} {s t : State} (h : exec i s = .next t) (hne : t.enc.state ≠ s.enc.state) :
    (∃ u, i = .encStart u ∧ t.enc.state = .active) ∨ (i = .encFinal ∧ t.enc.state = .done) := by
  obtain he | ⟨u, hi, he⟩ | ⟨b, -, -, he⟩ | ⟨hi, -, he⟩ := exec_enc_cases h
  · exact absurd (by rw [he]) hne
  · exact .inl ⟨u, hi, by rw [he]⟩
  · exact absurd (by rw [he, (encodeByte_state_url b s).1]) hne
  · exact .inr ⟨hi, by rw [he]⟩

/-- Only ENC_START writes `ENC.URL` (10_state.md R24). -/
theorem exec_keeps_encUrl {i : Instr} {s t : State} (h : exec i s = .next t) (hi : ∀ u, i ≠ .encStart u) :
    t.enc.url = s.enc.url := by
  obtain he | ⟨u, hu, -⟩ | ⟨b, -, -, he⟩ | ⟨-, -, he⟩ := exec_enc_cases h
  · rw [he]
  · exact absurd hu (hi u)
  · rw [he, (encodeByte_state_url b s).2]
  · rw [he]; exact flushGroup_url s

/-- Only DEC_START writes `DEC.URL` (10_state.md R29). -/
theorem exec_keeps_decUrl {i : Instr} {s t : State} (h : exec i s = .next t) (hi : ∀ u, i ≠ .decStart u) :
    t.dec.url = s.dec.url := by
  obtain hd | ⟨u, hu, -⟩ | ⟨x, -, -, hd⟩ := exec_dec_cases h
  · rw [hd]
  · exact absurd hu (hi u)
  · rw [hd, (decodeByte_state_url x s).2]

/-- A command keeps every flag that is set (10_state.md R32). -/
theorem exec_keeps_flag {i : Instr} {s t : State} {f : Fault} (h : exec i s = .next t) (hf : s.err.flag f = true) :
    t.err.flag f = true := by
  obtain he | ⟨g, he⟩ := exec_err_cases h
  · rw [he, hf]
  · rw [he, Err.flag_set, hf, Bool.true_or]

/-! ### The phases and the life-cycle field as register bits -/

theorem EncPhase.bits_legal (p : EncPhase) : p.bits = 0 ∨ p.bits = 1 ∨ p.bits = 2 := by cases p <;> decide

theorem DecPhase.bits_legal (p : DecPhase) : p.bits = 0 ∨ p.bits = 2 ∨ p.bits = 4 ∨ p.bits = 6 := by
  cases p <;> decide

theorem EncState.bits_ne_three (v : EncState) : v.bits ≠ 3 := by cases v <;> decide

/-! ### The obligations -/

/-- Settles O26: each part of legality is kept by each operation of its engine. -/
theorem everyStepKeepsLegalStates : Obligations.EveryStepKeepsLegalStates :=
  step_legal

/-- Settles O15: a command leaves the flags or sets one more, and so does an illegal word. -/
theorem noCommandClearsAFlag : Obligations.NoCommandClearsAFlag := by
  intro s t w rest f hin h hf
  obtain ⟨hin', -⟩ | ⟨_, hin', -⟩ | ⟨_, _, _, -, -, hx⟩ | ⟨_, _, -, -, rfl⟩ := step_cases h
  · exact nomatch hin.symm.trans hin'
  · exact nomatch hin.symm.trans hin'
  · exact exec_keeps_flag hx hf
  · simp [hf]

/-- Settles O27: legality holds at reset, whatever is presented, and every step keeps it. -/
theorem reachableStatesAreLegal : Obligations.ReachableStatesAreLegal := by
  intro inputs k t h
  have hinit : Legal { State.reset with hostIn := inputs } := Legal.of_engines_eq State.reset _ rfl rfl reset_legal
  obtain ⟨hcarry, hline, hdec⟩ := steps_invariant step_legal hinit h
  exact ⟨t.enc.phase.bits_legal, t.dec.phase.bits_legal, t.enc.state.bits_ne_three, hcarry, hline, hdec⟩

/-- Settles O29: no command sets an engine IDLE, and ENC_FINAL, which alone sets DONE, ends the group. -/
theorem everyStepKeepsTheLifeCycle : Obligations.EveryStepKeepsTheLifeCycle :=
  step_lifeCycle

/-- Settles O30, by the cases of a step and, for a command, of what it does to the encoder. -/
theorem onlyStartFinalAndResetWriteEncoderState : Obligations.OnlyStartFinalAndResetWriteEncoderState := by
  intro s t h hne
  obtain ⟨-, rfl⟩ | ⟨rest, hin, rfl⟩ | ⟨w, rest, i, hin, hd, hx⟩ | ⟨_, _, -, -, rfl⟩ := step_cases h
  · exact absurd rfl hne
  · exact .inr (.inr ⟨rest, hin, rfl⟩)
  · obtain ⟨u, rfl, ht⟩ | ⟨rfl, ht⟩ := exec_writes_encState hx hne
    · exact .inl ⟨w, rest, u, hin, hd, ht⟩
    · exact .inr (.inl ⟨w, rest, hin, hd, ht⟩)
  · exact absurd rfl hne

/-- Settles O31: the STARTs and reset by their meaning, the other commands by what they do to each engine. -/
theorem onlyStartAndResetWriteTheAlphabets : Obligations.OnlyStartAndResetWriteTheAlphabets :=
  ⟨fun _ _ => ⟨_, rfl, rfl, rfl⟩, fun _ _ => ⟨_, rfl, rfl, rfl⟩, fun _ => ⟨rfl, rfl⟩,
    fun _ _ _ h => ⟨exec_keeps_encUrl h, exec_keeps_decUrl h⟩⟩

/-- Settles O32: every operation that touches a stream appends to it. -/
theorem outputStreamsOnlyGrow : Obligations.OutputStreamsOnlyGrow := by
  intro s t h
  obtain ⟨⟨a, ha⟩, ⟨b, hb⟩, ⟨c, hc⟩⟩ := step_grows h
  exact ⟨a, b, c, ha.symm, hb.symm, hc.symm⟩

/-- Settles O23: the reset values as literals; each select of the STAT space reads 0. -/
theorem resetStateValues : Obligations.ResetStateValues :=
  ⟨rfl, rfl, rfl, rfl, by decide, fun _ => ⟨rfl, rfl, rfl⟩⟩

/-- Settles O25. -/
theorem resetStateMeetsTheInvariants : Obligations.ResetStateMeetsTheInvariants :=
  ⟨reset_legal, fun _ => rfl, reset_lifeCycle⟩

end Sys2Proof.Machine
end

section
/-! SUPPORT. How the commands that the host presents come to run (20_memory.md R56): the word of a command decodes to
it, a step runs it, and a list of presented commands runs in order. -/

namespace Sys2Proof

/-- Decoding undoes encoding (30_encoding.md R73). -/
@[simp] theorem decode_encode (i : Instr) : decode (encode i) = .command i := by
  cases i with
  | nop => rfl
  | encStart u => revert u; decide
  | encByte d8 => revert d8; decide
  | encFinal => rfl
  | decStart u => revert u; decide
  | decSym d8 => revert d8; decide
  | lutFwd u ix => revert u ix; decide
  | lutRev u d8 => revert u d8; decide
  | rdStat sel => revert sel; decide

end Sys2Proof

namespace Sys2Proof.Machine

theorem step_of_command {s : State} {w : Word} {rest : List HostEvent} {i : Instr} (hin : s.hostIn = .command w :: rest)
    (hw : decode w = .command i) : step s = exec i (s.setHostIn rest) := by
  simp only [step, takeInput, hin, hw]

/-- The word that `withFetchWord` presents is the given one, since a command word has 16 bits. -/
theorem withFetchWord_hostIn (s : State) (w : Word) :
    (s.withFetchWord 16 w.toNat).hostIn = .command w :: s.hostIn := by
  simp [State.withFetchWord, Nat.mod_eq_of_lt w.isLt]

/-- Running a command does not look at or change what is presented behind it. -/
theorem exec_hostIn {i : Instr} {s t : State} (h : exec i s = .next t) : t.hostIn = s.hostIn := by
  obtain ⟨-, rfl⟩ | ⟨_, -, rfl⟩ | ⟨b, -, -, rfl⟩ | ⟨_, -, -, rfl⟩ | ⟨-, -, rfl⟩ | ⟨-, -, rfl⟩ | ⟨_, -, rfl⟩ |
    ⟨x, -, -, rfl⟩ | ⟨_, -, -, rfl⟩ | ⟨_, _, -, rfl⟩ | ⟨_, _, -, rfl⟩ | ⟨_, -, rfl⟩ := exec_cases h
  · rfl
  · rfl
  · exact (encodeByte_frame b s).2.2.2.2
  · rfl
  · exact (flushGroup_frame s).2.2.2.2
  · rfl
  · rfl
  · exact (decodeByte_frame x s).2.2.2.2
  · rfl
  · rfl
  · rfl
  · rfl

/-- Steps from a state with commands presented run the first of them and leave the others presented. -/
theorem steps_presents_cons {i : Instr} {is : List Instr} {rest : List HostEvent} {k : Nat} {s t : State}
    (hin : presents s (i :: is) rest) (h : steps (k + 1) s = .next t) :
    ∃ r, exec i (s.setHostIn (presented is ++ rest)) = .next r ∧ presents r is rest ∧ steps k r = .next t := by
  have hstep : step s = exec i (s.setHostIn (presented is ++ rest)) := step_of_command hin (decode_encode i)
  simp only [steps, hstep] at h
  cases hx : exec i (s.setHostIn (presented is ++ rest)) with
  | next r => exact ⟨r, rfl, exec_hostIn hx, by simpa only [hx] using h⟩
  | fault f => simp [hx] at h
  | refused r => simp [hx] at h

/-- What a run of presented commands does to a part `view` of the state that each command changes as `after` says and
that does not contain the input: the induction over the commands, packaged once. -/
theorem steps_presents_foldl {α : Type} {view : State → α} {after : α → Instr → α}
    (hinput : ∀ s v, view (s.setHostIn v) = view s)
    (hexec : ∀ {i s t}, exec i s = .next t → view t = after (view s) i)
    {is : List Instr} {rest : List HostEvent} {s t : State} (hin : presents s is rest)
    (h : steps is.length s = .next t) : view t = is.foldl after (view s) := by
  induction is generalizing s with
  | nil => cases h; rfl
  | cons i is ih =>
    obtain ⟨r, hx, hr, hsteps⟩ := steps_presents_cons hin h
    rw [ih hr hsteps, hexec hx, hinput, List.foldl_cons]

end Sys2Proof.Machine
end

section
/-! SUPPORT. What the encoder's commands emit and leave in its registers, as closed forms over the characters they
write: the line wrap of 42_encoder.md R121 over a list of characters, the characters of a byte (R123) and of the flush
(R124). The same for the decoder's one input byte (43_decoder.md R151). -/

namespace Sys2Proof.Machine

/-! ### A list of characters through the line wrap -/

/-- What a list of symbol and padding bytes adds to `enc_o`, from a line count (42_encoder.md R121). -/
def charsOut (u : Bool) : BitVec 6 → List Byte → List Byte
  | _, [] => []
  | line, ch :: chs => Reference.charOut u line ch ++ charsOut u (Reference.lineAfter u line) chs

/-- The line count after a list of symbol and padding bytes (42_encoder.md R121). -/
def lineAfterChars (u : Bool) (line : BitVec 6) (chs : List Byte) : BitVec 6 :=
  chs.foldl (fun l _ => Reference.lineAfter u l) line

section
variable (u : Bool) (line : BitVec 6)

@[simp] theorem charsOut_nil : charsOut u line [] = [] := rfl

@[simp] theorem charsOut_cons (ch : Byte) (chs : List Byte) :
    charsOut u line (ch :: chs) = Reference.charOut u line ch ++ charsOut u (Reference.lineAfter u line) chs := rfl

@[simp] theorem lineAfterChars_nil : lineAfterChars u line [] = line := rfl

@[simp] theorem lineAfterChars_cons (ch : Byte) (chs : List Byte) :
    lineAfterChars u line (ch :: chs) = lineAfterChars u (Reference.lineAfter u line) chs := rfl

theorem charsOut_append (as bs : List Byte) :
    charsOut u line (as ++ bs) = charsOut u line as ++ charsOut u (lineAfterChars u line as) bs := by
  induction as generalizing line with
  | nil => rfl
  | cons a as ih => simp [ih]

theorem lineAfterChars_append (as bs : List Byte) :
    lineAfterChars u line (as ++ bs) = lineAfterChars u (lineAfterChars u line as) bs := List.foldl_append

end

/-- Only a full line is ended before the next character. -/
theorem charOut_of_not_full {u : Bool} {line : BitVec 6} (h : line ≠ 60) (ch : Byte) :
    Reference.charOut u line ch = [ch] :=
  if_neg fun hfull => h hfull.2

theorem lineAfter_of_not_full {line : BitVec 6} (h : line ≠ 60) : Reference.lineAfter false line = line + 1 :=
  if_neg h

/-- A URL-safe stream has no lines. -/
@[simp] theorem charsOut_url (line : BitVec 6) (chs : List Byte) : charsOut true line chs = chs := by
  induction chs generalizing line with
  | nil => rfl
  | cons ch chs ih => rw [charsOut_cons, ih]; rfl

/-- In the standard alphabet the characters that finish an open group stay on its line: only a character at a line
position that is a multiple of 4 can be preceded by a newline, since 60 is one. -/
theorem charsOut_within_group {line : BitVec 6} {chs : List Byte} (hopen : line.toNat % 4 ≠ 0)
    (hfits : line.toNat % 4 + chs.length ≤ 4) : charsOut false line chs = chs := by
  induction chs generalizing line with
  | nil => rfl
  | cons ch chs ih =>
    have hfull : line ≠ 60 := by rintro rfl; exact hopen rfl
    rw [charsOut_cons, charOut_of_not_full hfull, lineAfter_of_not_full hfull, List.singleton_append]
    cases chs with
    | nil => rfl
    | cons ch' chs =>
      simp only [List.length_cons] at hfits ih
      have hnext : (line + 1).toNat = line.toNat + 1 := by bv_omega
      rw [ih (by omega) (by omega)]

/-- One character takes one or two bytes. -/
theorem charOut_length (u : Bool) (line : BitVec 6) (ch : Byte) :
    1 ≤ (Reference.charOut u line ch).length ∧ (Reference.charOut u line ch).length ≤ 2 := by
  unfold Reference.charOut
  split <;> simp

/-! ### The characters of a byte and of the flush -/

/-- The cycle 0, 1, 2, 0 of `ENC.PHASE` (42_encoder.md R123). -/
def EncPhase.next : EncPhase → EncPhase
  | .zero => .one
  | .one => .two
  | .two => .zero

/-- The symbols that a byte completes (42_encoder.md R123). -/
def Enc.byteSyms (e : Enc) (b : Byte) : List Sym :=
  match e.phase with
  | .zero => [symAtZero b]
  | .one => [symAtOne e.carry b]
  | .two => [symAtTwo e.carry b, symLast b]

/-- The characters that a byte writes. -/
def Enc.byteChars (e : Enc) (b : Byte) : List Byte := (e.byteSyms b).map (fwdEntry e.url)

/-- The carry that a byte leaves (42_encoder.md R123). -/
def Enc.byteCarry (e : Enc) (b : Byte) : Byte :=
  match e.phase with
  | .zero => carryAtZero b
  | .one => carryAtOne b
  | .two => 0

/-- The symbol that ENC_FINAL flushes, if the group is open (42_encoder.md R124). -/
def Enc.flushSyms (e : Enc) : List Sym :=
  match e.phase with
  | .zero => []
  | .one | .two => [symFlush e.carry]

/-- The characters that ENC_FINAL writes: the flushed symbol and, in the standard alphabet, the padding (42_encoder.md
R124). -/
def Enc.flushChars (e : Enc) : List Byte :=
  e.flushSyms.map (fwdEntry e.url) ++ if e.url then [] else Reference.padding e.phase.bits.toNat

/-- The encoder after a list of characters has been written. -/
def Enc.write (e : Enc) (chs : List Byte) : Enc := { e with line := lineAfterChars e.url e.line chs }

/-- The encoder after a byte in an open stream. -/
def Enc.afterByte (e : Enc) (b : Byte) : Enc :=
  { e.write (e.byteChars b) with carry := e.byteCarry b, phase := e.phase.next }

/-- The encoder after ENC_FINAL in an open stream. -/
def Enc.afterFinal (e : Enc) : Enc :=
  { e.write e.flushChars with carry := 0, phase := .zero, state := .done }

theorem encodeByte_eq (b : Byte) (s : State) :
    encodeByte b s = { s with
      enc := s.enc.afterByte b
      encO := s.encO ++ charsOut s.enc.url s.enc.line (s.enc.byteChars b) } := by
  cases hp : s.enc.phase <;>
    simp [encodeByte, hp, emitSym_eq, emitChar_eq, Enc.afterByte, Enc.write, Enc.byteChars, Enc.byteSyms,
      Enc.byteCarry, EncPhase.next, State.setEncCarry, State.setEncPhase]

theorem flushGroup_eq (s : State) :
    flushGroup s = { s with
      enc := s.enc.write s.enc.flushChars
      encO := s.encO ++ charsOut s.enc.url s.enc.line s.enc.flushChars } := by
  obtain ⟨⟨st, u, p, ca, l⟩, d, e, eo, dq, r, h⟩ := s
  cases p <;> cases u <;>
    simp [flushGroup, emitPad, emitSym_eq, emitChar_eq, Enc.write, Enc.flushChars, Enc.flushSyms,
      Reference.padding, EncPhase.bits]

/-- In an aligned state ENC_FINAL writes what is left of the open group, so nothing is wrapped (42_encoder.md R125). -/
theorem charsOut_flushChars {s : State} (h : GroupAligned s) :
    charsOut s.enc.url s.enc.line s.enc.flushChars = s.enc.flushChars := by
  cases hu : s.enc.url with
  | true => exact charsOut_url _ _
  | false =>
    have hline := h hu
    cases hp : s.enc.phase <;> rw [hp] at hline
    case zero => simp [Enc.flushChars, Enc.flushSyms, hp, hu, Reference.padding, EncPhase.bits]
    case one | two =>
      refine charsOut_within_group (by simp [hline, EncPhase.bits]) ?_
      simp [hline, Enc.flushChars, Enc.flushSyms, hp, hu, Reference.padding, EncPhase.bits]

/-- ENC_FINAL writes at most a symbol and two padding bytes. -/
theorem Enc.flushChars_length (e : Enc) : e.flushChars.length ≤ 3 := by
  cases hp : e.phase <;> cases hu : e.url <;>
    simp [Enc.flushChars, Enc.flushSyms, hp, hu, Reference.padding, EncPhase.bits]

/-- In an aligned state a byte adds one to three bytes to `enc_o` (20_memory.md R55): at phases 0 and 1 it writes one
character, and at phase 2, where it writes two, no newline can come. -/
theorem charsOut_byteChars_length {s : State} (h : GroupAligned s) (b : Byte) :
    1 ≤ (charsOut s.enc.url s.enc.line (s.enc.byteChars b)).length ∧
      (charsOut s.enc.url s.enc.line (s.enc.byteChars b)).length ≤ 3 := by
  have hone (ch : Byte) (hch : s.enc.byteChars b = [ch]) :
      1 ≤ (charsOut s.enc.url s.enc.line (s.enc.byteChars b)).length ∧
        (charsOut s.enc.url s.enc.line (s.enc.byteChars b)).length ≤ 3 := by
    obtain ⟨hmin, hmax⟩ := charOut_length s.enc.url s.enc.line ch
    rw [hch, charsOut_cons, charsOut_nil, List.append_nil]
    exact ⟨hmin, by omega⟩
  cases hp : s.enc.phase with
  | zero => exact hone (fwdEntry s.enc.url (symAtZero b)) (by simp [Enc.byteChars, Enc.byteSyms, hp])
  | one => exact hone (fwdEntry s.enc.url (symAtOne s.enc.carry b)) (by simp [Enc.byteChars, Enc.byteSyms, hp])
  | two =>
    have hchars : (s.enc.byteChars b).length = 2 := by simp [Enc.byteChars, Enc.byteSyms, hp]
    have hout : charsOut s.enc.url s.enc.line (s.enc.byteChars b) = s.enc.byteChars b := by
      cases hu : s.enc.url with
      | true => exact charsOut_url _ _
      | false =>
        have hline : s.enc.line.toNat % 4 = 2 := by rw [h hu, hp]; rfl
        exact charsOut_within_group (by omega) (by omega)
    rw [hout, hchars]
    decide

/-! ### The decoder's input byte -/

/-- The byte, if any, that a recognized symbol completes (43_decoder.md R151). -/
def Dec.symOut (d : Dec) (c : Sym) : List Byte := if d.phase = .zero then [] else [decByte d.carry d.phase c]

/-- What an input byte in an open stream adds to `dec_o`. -/
def Dec.byteOut (d : Dec) (x : Byte) : List Byte :=
  if Reference.recognized d.url x then d.symOut (revIDX (revEntry d.url x)) else []

/-- The decoder after a recognized symbol. -/
def Dec.afterSym (d : Dec) (c : Sym) : Dec := { d with phase := d.phase.next, carry := decCarry d.phase.next c }

/-- The decoder after an input byte in an open stream. -/
def Dec.afterByte (d : Dec) (x : Byte) : Dec :=
  if Reference.recognized d.url x then d.afterSym (revIDX (revEntry d.url x)) else d

theorem decodeSymbol_eq (c : Sym) (s : State) :
    decodeSymbol c s = { s with dec := s.dec.afterSym c, decO := s.decO ++ s.dec.symOut c } := by
  by_cases hp : s.dec.phase = .zero <;>
    simp [decodeSymbol, Dec.afterSym, Dec.symOut, hp, emitDec, State.setDecPhase, State.setDecCarry]

theorem decodeByte_eq (x : Byte) (s : State) :
    decodeByte x s = { s with dec := s.dec.afterByte x, decO := s.decO ++ s.dec.byteOut x } := by
  cases hx : revNF (revEntry s.dec.url x) with
  | true => simp [decodeByte, Dec.afterByte, Dec.byteOut, Reference.recognized, hx]
  | false => simp [decodeByte, Dec.afterByte, Dec.byteOut, Reference.recognized, hx, decodeSymbol_eq]

theorem Dec.byteOut_length (d : Dec) (x : Byte) : (d.byteOut x).length ≤ 1 := by
  unfold Dec.byteOut Dec.symOut
  split
  · split <;> simp
  · simp

/-! ### The commands in an open stream -/

theorem exec_encByte_active {s : State} (h : s.enc.state = .active) (b : Byte) :
    exec (.encByte b) s = .next { s with
      enc := s.enc.afterByte b
      encO := s.encO ++ charsOut s.enc.url s.enc.line (s.enc.byteChars b) } := by
  rw [← encodeByte_eq]
  exact if_pos h

theorem exec_encFinal_active {s : State} (h : s.enc.state = .active) :
    exec .encFinal s = .next { s with
      enc := s.enc.afterFinal
      encO := s.encO ++ charsOut s.enc.url s.enc.line s.enc.flushChars } := by
  rw [exec, execEncFinal, if_pos h, flushGroup_eq]
  rfl

theorem exec_decSym_active {s : State} (h : s.dec.state = .active) (x : Byte) :
    exec (.decSym x) s = .next { s with dec := s.dec.afterByte x, decO := s.decO ++ s.dec.byteOut x } := by
  rw [← decodeByte_eq]
  exact if_pos h

end Sys2Proof.Machine
end

section
/-! SUPPORT. Each engine as a machine of its own (20_memory.md R58): its registers, its output stream and its sequence
flag, what each command makes of them without anything else of the state, and that a run of presented commands does
just that. -/

namespace Sys2Proof.Machine

/-- The encoder's part of the state. -/
structure EncPart where
  enc : Enc
  encO : List Byte
  seqEnc : Bool

/-- The decoder's part of the state. -/
structure DecPart where
  dec : Dec
  decO : List Byte
  seqDec : Bool

def State.encPart (s : State) : EncPart := ⟨s.enc, s.encO, s.err.seqEnc⟩

def State.decPart (s : State) : DecPart := ⟨s.dec, s.decO, s.err.seqDec⟩

/-- What a command makes of the encoder's part (42_encoder.md R122 to R124, 60_exceptions.md R183). -/
def EncPart.after (p : EncPart) : Instr → EncPart
  | .encStart u => { p with enc := { Enc.reset with state := .active, url := u } }
  | .encByte b =>
    if p.enc.state = .active then
      { p with
        enc := p.enc.afterByte b
        encO := p.encO ++ charsOut p.enc.url p.enc.line (p.enc.byteChars b) }
    else { p with seqEnc := true }
  | .encFinal =>
    if p.enc.state = .active then
      { p with
        enc := p.enc.afterFinal
        encO := p.encO ++ charsOut p.enc.url p.enc.line p.enc.flushChars }
    else { p with seqEnc := true }
  | .nop | .decStart _ | .decSym _ | .lutFwd _ _ | .lutRev _ _ | .rdStat _ => p

/-- What a command makes of the decoder's part (43_decoder.md R150, R151, 60_exceptions.md R184). -/
def DecPart.after (p : DecPart) : Instr → DecPart
  | .decStart u => { p with dec := { Dec.reset with state := .active, url := u } }
  | .decSym x =>
    if p.dec.state = .active then { p with dec := p.dec.afterByte x, decO := p.decO ++ p.dec.byteOut x }
    else { p with seqDec := true }
  | .nop | .encStart _ | .encByte _ | .encFinal | .lutFwd _ _ | .lutRev _ _ | .rdStat _ => p

/-- A command changes each engine's part as that part alone tells. -/
theorem exec_parts {i : Instr} {s t : State} (h : exec i s = .next t) :
    t.encPart = s.encPart.after i ∧ t.decPart = s.decPart.after i := by
  obtain ⟨rfl, rfl⟩ | ⟨_, rfl, rfl⟩ | ⟨b, rfl, hs, rfl⟩ | ⟨_, rfl, hs, rfl⟩ | ⟨rfl, hs, rfl⟩ | ⟨rfl, hs, rfl⟩ |
    ⟨_, rfl, rfl⟩ | ⟨x, rfl, hs, rfl⟩ | ⟨_, rfl, hs, rfl⟩ | ⟨_, _, rfl, rfl⟩ | ⟨_, _, rfl, rfl⟩ | ⟨_, rfl, rfl⟩ :=
    exec_cases h
  · exact ⟨rfl, rfl⟩
  · exact ⟨rfl, rfl⟩
  · rw [encodeByte_eq]; exact ⟨(if_pos hs).symm, rfl⟩
  · exact ⟨(if_neg hs).symm, rfl⟩
  · rw [flushGroup_eq]; exact ⟨(if_pos hs).symm, rfl⟩
  · exact ⟨(if_neg hs).symm, rfl⟩
  · exact ⟨rfl, rfl⟩
  · rw [decodeByte_eq]; exact ⟨rfl, (if_pos hs).symm⟩
  · exact ⟨rfl, (if_neg hs).symm⟩
  · exact ⟨rfl, rfl⟩
  · exact ⟨rfl, rfl⟩
  · exact ⟨rfl, rfl⟩

section
variable {is : List Instr} {rest : List HostEvent} {s t : State} (hin : presents s is rest)
  (h : steps is.length s = .next t)
include hin h

theorem steps_presents_encPart : t.encPart = is.foldl EncPart.after s.encPart :=
  steps_presents_foldl (fun _ _ => rfl) (fun hx => (exec_parts hx).1) hin h

theorem steps_presents_decPart : t.decPart = is.foldl DecPart.after s.decPart :=
  steps_presents_foldl (fun _ _ => rfl) (fun hx => (exec_parts hx).2) hin h

end

/-- Dropping commands that change nothing of a part changes nothing of what a list of commands makes of it. -/
theorem foldl_filter_of_idle {α : Type} {after : α → Instr → α} {own : Instr → Bool}
    (hidle : ∀ i p, own i = false → after p i = p) (is : List Instr) (p : α) :
    (is.filter own).foldl after p = is.foldl after p := by
  induction is generalizing p with
  | nil => rfl
  | cons i is ih =>
    cases hi : own i with
    | true => rw [List.filter_cons_of_pos hi, List.foldl_cons, List.foldl_cons, ih]
    | false => rw [List.filter_cons_of_neg (by simp [hi]), List.foldl_cons, hidle i p hi, ih]

end Sys2Proof.Machine
end

section
/-! SUPPORT. An encode stream alone: the characters it writes are the symbols of its bytes (42_encoder.md R120) and the
padding (R126), and the symbols are its bits, six at a time (20_memory.md R52). -/

namespace Sys2Proof.Reference

/-! ### The symbols and the bits -/

theorem symbols_length (bytes : List Byte) : (symbols bytes).length = (8 * bytes.length + 5) / 6 := by
  induction bytes using symbols.induct with
  | case1 b0 b1 b2 rest ih => simp only [symbols, List.length_cons, ih]; omega
  | case2 | case3 => simp [symbols]
  | case4 => rfl

@[simp] theorem bits_length {w : Nat} (v : BitVec w) : (bits v).length = w := by simp [bits]

theorem bits_getD {w j : Nat} (v : BitVec w) (hj : j < w) : (bits v).getD j false = v.getMsbD j := by
  simp [bits, hj]

@[simp] theorem bitString_nil {w : Nat} : bitString ([] : List (BitVec w)) = [] := rfl

@[simp] theorem bitString_cons {w : Nat} (v : BitVec w) (vs : List (BitVec w)) :
    bitString (v :: vs) = bits v ++ bitString vs := rfl

/-- Bit j of value k is bit w k + j of the bit string. -/
theorem bitString_getD {w : Nat} (vs : List (BitVec w)) {k j : Nat} (hk : k < vs.length) (hj : j < w) :
    (bitString vs).getD (w * k + j) false = (vs.getD k 0).getMsbD j := by
  induction vs generalizing k with
  | nil => exact absurd hk (Nat.not_lt_zero k)
  | cons v vs ih =>
    cases k with
    | zero =>
      rw [bitString_cons, Nat.mul_zero, Nat.zero_add, List.getD_append _ _ _ _ (by simpa using hj), bits_getD v hj]
      rfl
    | succ k =>
      have hpos : w * (k + 1) + j = w + (w * k + j) := by rw [Nat.mul_succ]; omega
      rw [bitString_cons, hpos, List.getD_append_right _ _ _ _ (by simp), bits_length, Nat.add_sub_cancel_left,
        ih (Nat.lt_of_succ_lt_succ hk)]
      rfl

/-- The bits of a value are those of its upper part and then those of its lower part. -/
theorem bits_append {v w : Nat} (x : BitVec v) (y : BitVec w) : bits (x ++ y) = bits x ++ bits y := by
  apply List.ext_getElem
  · simp
  · intro k hk _
    simp only [bits_length] at hk
    by_cases hx : k < v
    · simp [bits, BitVec.getMsbD_append, hx]
    · simp [bits, BitVec.getMsbD_append, List.getElem_append, hx]

theorem bits_sym_two_four (x : BitVec 2) (y : BitVec 4) : bits (w := 6) (x ++ y) = bits x ++ bits y :=
  bits_append x y

theorem bits_sym_four_two (x : BitVec 4) (y : BitVec 2) : bits (w := 6) (x ++ y) = bits x ++ bits y :=
  bits_append x y

theorem bits_byte_six_two (b : Byte) : bits b = bits (b.extractLsb' 2 6) ++ bits (b.extractLsb' 0 2) := by
  have hsplit : b = b.extractLsb' 2 6 ++ b.extractLsb' 0 2 := by revert b; decide
  rw [← bits_append, ← hsplit]

theorem bits_byte_four_four (b : Byte) : bits b = bits (b.extractLsb' 4 4) ++ bits (b.extractLsb' 0 4) := by
  have hsplit : b = b.extractLsb' 4 4 ++ b.extractLsb' 0 4 := by revert b; decide
  rw [← bits_append, ← hsplit]

theorem bits_byte_two_six (b : Byte) : bits b = bits (b.extractLsb' 6 2) ++ bits (b.extractLsb' 0 6) := by
  have hsplit : b = b.extractLsb' 6 2 ++ b.extractLsb' 0 6 := by revert b; decide
  rw [← bits_append, ← hsplit]

/-- The bits of the symbols are the bits of the bytes and then fill bits 0 (42_encoder.md R120). -/
theorem bitString_symbols (bytes : List Byte) :
    ∃ n, bitString (symbols bytes) = bitString bytes ++ List.replicate n false := by
  induction bytes using symbols.induct with
  | case1 b0 b1 b2 rest ih =>
    obtain ⟨n, ih⟩ := ih
    exact ⟨n, by simp [symbols, ih, bits_sym_two_four, bits_sym_four_two, bits_byte_six_two b0,
      bits_byte_four_four b1, bits_byte_two_six b2]⟩
  | case2 b0 b1 =>
    have hfill : bits 0#2 = List.replicate 2 false := by decide
    exact ⟨2, by simp [symbols, hfill, bits_sym_two_four, bits_sym_four_two, bits_byte_six_two b0,
      bits_byte_four_four b1]⟩
  | case3 b0 =>
    have hfill : bits 0#4 = List.replicate 4 false := by decide
    exact ⟨4, by simp [symbols, hfill, bits_sym_two_four, bits_byte_six_two b0]⟩
  | case4 => exact ⟨0, rfl⟩

theorem getD_append_replicate {α : Type} (l : List α) (n k : Nat) (d : α) :
    (l ++ List.replicate n d).getD k d = l.getD k d := by
  by_cases hk : k < l.length
  · exact List.getD_append _ _ _ _ hk
  · rw [List.getD_append_right _ _ _ _ (Nat.le_of_not_lt hk), List.getD_eq_default _ _ (Nat.le_of_not_lt hk),
      List.getD_eq_getElem?_getD, List.getElem?_getD_replicate_default_eq]

/-- Bit j of symbol k is bit 6 k + j of the bytes, with fill bits 0 (20_memory.md R52). -/
theorem symbols_getMsbD (bytes : List Byte) {k j : Nat} (hk : k < (symbols bytes).length) (hj : j < 6) :
    ((symbols bytes).getD k 0).getMsbD j = (bitString bytes).getD (6 * k + j) false := by
  obtain ⟨n, hn⟩ := bitString_symbols bytes
  rw [← bitString_getD _ hk hj, hn, getD_append_replicate]

end Sys2Proof.Reference

namespace Sys2Proof.Machine

/-! ### The symbols the machine forms with its carry -/

theorem symAtOne_carryAtZero (b0 b1 : Byte) :
    symAtOne (carryAtZero b0) b1 = b0.extractLsb' 0 2 ++ b1.extractLsb' 4 4 := by
  unfold symAtOne carryAtZero
  generalize b0.extractLsb' 0 2 = x
  generalize b1.extractLsb' 4 4 = y
  revert x y; decide

theorem symAtTwo_carryAtOne (b1 b2 : Byte) :
    symAtTwo (carryAtOne b1) b2 = b1.extractLsb' 0 4 ++ b2.extractLsb' 6 2 := by
  unfold symAtTwo carryAtOne
  generalize b1.extractLsb' 0 4 = x
  generalize b2.extractLsb' 6 2 = y
  revert x y; decide

theorem symFlush_carryAtZero (b : Byte) : symFlush (carryAtZero b) = b.extractLsb' 0 2 ++ (0 : BitVec 4) := by
  revert b; decide

theorem symFlush_carryAtOne (b : Byte) : symFlush (carryAtOne b) = b.extractLsb' 0 4 ++ (0 : BitVec 2) := by
  revert b; decide

/-! ### The stream -/

theorem padding_add_three (n : Nat) : Reference.padding (n + 3) = Reference.padding n := by
  rw [Reference.padding, Nat.add_mod_right, Reference.padding]

/-- The characters of an encode stream, without the newlines (42_encoder.md R126). -/
def streamChars (u : Bool) (bytes : List Byte) : List Byte :=
  (Reference.symbols bytes).map (fwdEntry u) ++ if u then [] else Reference.padding bytes.length

/-- The encoder's part in an open stream, at a phase with a carry, when `chs` have been written since `p`. -/
def EncPart.during (p : EncPart) (ph : EncPhase) (ca : Byte) (chs : List Byte) : EncPart :=
  ⟨{ p.enc.write chs with state := .active, phase := ph, carry := ca },
    p.encO ++ charsOut p.enc.url p.enc.line chs, p.seqEnc⟩

/-- The encoder's part after a stream, when `chs` have been written since `p`. -/
def EncPart.finished (p : EncPart) (chs : List Byte) : EncPart :=
  { p.during .zero 0 chs with enc := { (p.during .zero 0 chs).enc with state := .done } }

section
variable (p : EncPart) (ph : EncPhase) (ca : Byte) (chs : List Byte)

theorem EncPart.during_encByte (b : Byte) :
    (p.during ph ca chs).after (.encByte b) =
      p.during ph.next ((p.during ph ca chs).enc.byteCarry b) (chs ++ (p.during ph ca chs).enc.byteChars b) := by
  simp [EncPart.after, EncPart.during, Enc.afterByte, Enc.write, charsOut_append, lineAfterChars_append]

theorem EncPart.during_encFinal :
    (p.during ph ca chs).after .encFinal =
      p.finished (chs ++ { p.enc with phase := ph, carry := ca }.flushChars) := by
  show _ = p.finished (chs ++ (p.during ph ca chs).enc.flushChars)
  simp [EncPart.after, EncPart.during, EncPart.finished, Enc.afterFinal, Enc.write, charsOut_append,
    lineAfterChars_append]

/-- A byte at phase 0. -/
theorem EncPart.during_zero_encByte (b : Byte) :
    (p.during .zero ca chs).after (.encByte b) =
      p.during .one (carryAtZero b) (chs ++ [fwdEntry p.enc.url (symAtZero b)]) := p.during_encByte .zero ca chs b

/-- A byte at phase 1. -/
theorem EncPart.during_one_encByte (b : Byte) :
    (p.during .one ca chs).after (.encByte b) =
      p.during .two (carryAtOne b) (chs ++ [fwdEntry p.enc.url (symAtOne ca b)]) := p.during_encByte .one ca chs b

/-- A byte at phase 2. -/
theorem EncPart.during_two_encByte (b : Byte) :
    (p.during .two ca chs).after (.encByte b) =
      p.during .zero 0 (chs ++ [fwdEntry p.enc.url (symAtTwo ca b), fwdEntry p.enc.url (symLast b)]) :=
  p.during_encByte .two ca chs b

/-- The rest of an encode stream from a group boundary on writes the characters of its bytes. -/
theorem EncPart.foldl_bytes_final (bytes : List Byte) :
    (bytes.map Instr.encByte ++ [Instr.encFinal]).foldl EncPart.after (p.during .zero 0 chs) =
      p.finished (chs ++ streamChars p.enc.url bytes) := by
  induction bytes using Reference.symbols.induct generalizing chs with
  | case1 b0 b1 b2 rest ih =>
    simp only [List.map_cons, List.cons_append, List.foldl_cons, during_zero_encByte, during_one_encByte,
      during_two_encByte, ih]
    simp [streamChars, Reference.symbols, padding_add_three, symAtOne_carryAtZero, symAtTwo_carryAtOne, symAtZero,
      symLast]
  | case2 b0 b1 =>
    simp only [List.map_cons, List.map_nil, List.cons_append, List.nil_append, List.foldl_cons, List.foldl_nil,
      during_zero_encByte, during_one_encByte, during_encFinal]
    simp [streamChars, Reference.symbols, Enc.flushChars, Enc.flushSyms, EncPhase.bits, symAtZero, symAtOne_carryAtZero,
      symFlush_carryAtOne]
  | case3 b0 =>
    simp only [List.map_cons, List.map_nil, List.cons_append, List.nil_append, List.foldl_cons, List.foldl_nil,
      during_zero_encByte, during_encFinal]
    simp [streamChars, Reference.symbols, Enc.flushChars, Enc.flushSyms, EncPhase.bits, symAtZero, symFlush_carryAtZero]
  | case4 =>
    simp only [List.map_nil, List.nil_append, List.foldl_cons, List.foldl_nil, during_encFinal]
    simp [streamChars, Reference.symbols, Enc.flushChars, Enc.flushSyms, EncPhase.bits]

end

/-- An encode stream appends its characters, through the line wrap, to `enc_o`. -/
theorem encodeStream_encPart {u : Bool} {bytes : List Byte} {rest : List HostEvent} {s t : State}
    (hin : presents s (encodeStream u bytes) rest) (h : steps (encodeStream u bytes).length s = .next t) :
    t.encPart = (s.encPart.after (.encStart u)).finished (streamChars u bytes) := by
  have hstart : s.encPart.after (.encStart u) = (s.encPart.after (.encStart u)).during .zero 0 [] := by
    simp [EncPart.after, EncPart.during, Enc.write, Enc.reset]
  rw [steps_presents_encPart hin h, encodeStream, List.foldl_cons]
  conv_lhs => rw [hstart]
  exact EncPart.foldl_bytes_final _ [] bytes

/-! ### The symbol bytes among the output -/

theorem recognized_fwdEntry (u : Bool) (i : Sym) : Reference.recognized u (fwdEntry u i) = true := by
  revert u i; decide

theorem filter_recognized_charOut (u : Bool) (line : BitVec 6) (ch : Byte) :
    (Reference.charOut u line ch).filter (Reference.recognized u) = [ch].filter (Reference.recognized u) := by
  have hnewline : Reference.recognized u 10#8 = false := by revert u; decide
  unfold Reference.charOut
  split
  · rw [List.filter_cons_of_neg (by simp [hnewline])]
  · rfl

/-- The newlines of the line wrap are no symbol bytes. -/
theorem filter_recognized_charsOut (u : Bool) (line : BitVec 6) (chs : List Byte) :
    (charsOut u line chs).filter (Reference.recognized u) = chs.filter (Reference.recognized u) := by
  induction chs generalizing line with
  | nil => rfl
  | cons ch chs ih =>
    rw [charsOut_cons, List.filter_append, filter_recognized_charOut, ih, ← List.filter_append,
      List.singleton_append]

/-- The padding is no symbol byte. -/
theorem filter_recognized_padding (n : Nat) : (Reference.padding n).filter (Reference.recognized false) = [] := by
  unfold Reference.padding
  split
  · decide
  · split <;> decide

theorem filter_recognized_streamChars (u : Bool) (bytes : List Byte) :
    (streamChars u bytes).filter (Reference.recognized u) = (Reference.symbols bytes).map (fwdEntry u) := by
  have hsyms : ((Reference.symbols bytes).map (fwdEntry u)).filter (Reference.recognized u) =
      (Reference.symbols bytes).map (fwdEntry u) := by
    simp [List.filter_eq_self, recognized_fwdEntry]
  cases u with
  | false => simp [streamChars, hsyms, filter_recognized_padding]
  | true => simp [streamChars, hsyms]

end Sys2Proof.Machine
end

section
/-! CERTIFICATES. The obligations of 20_memory.md. -/

namespace Sys2Proof.Machine

/-- Settles O9. -/
theorem stepRunsTheDecodedCommand : Obligations.StepRunsTheDecodedCommand :=
  fun _ _ _ _ hin hw => step_of_command hin hw

/-- Settles O10: the word presented in front decodes to the command, and taking it gives back the state before. -/
theorem fetchedWordOfACommandRunsIt : Obligations.FetchedWordOfACommandRunsIt := by
  intro s i
  rw [step_of_command (withFetchWord_hostIn s (encode i)) (decode_encode i)]
  rfl

/-- Settles O33, by what each command in an open stream appends and how long that is. -/
theorem emitCountsPerCommand : Obligations.EmitCountsPerCommand := by
  refine fun s => ⟨fun hs _ hal b => ?_, fun hs _ hal => ?_, fun hs x => ?_, fun i hi => ?_⟩
  · obtain ⟨hmin, hmax⟩ := charsOut_byteChars_length hal b
    exact ⟨_, _, exec_encByte_active hs b, rfl, hmin, hmax, rfl, rfl⟩
  · have hmax := s.enc.flushChars_length
    exact ⟨_, _, exec_encFinal_active hs, rfl, by rwa [charsOut_flushChars hal], rfl, rfl⟩
  · exact ⟨_, _, exec_decSym_active hs x, rfl, s.dec.byteOut_length x, rfl, rfl⟩
  · obtain ⟨u, ix, rfl⟩ | ⟨u, x, rfl⟩ | ⟨sel, rfl⟩ := hi
    · exact ⟨_, _, rfl, rfl, rfl, rfl⟩
    · exact ⟨_, _, rfl, rfl, rfl, rfl⟩
    · exact ⟨_, _, rfl, rfl, rfl, rfl⟩

/-- Settles O35: on the encoder's part of the state the other commands do nothing, so leaving them out of the run
changes nothing. -/
theorem encoderIsBlindToInterleavedCommands : Obligations.EncoderIsBlindToInterleavedCommands := by
  intro is s s' t t' own hin hin' henc hencO hseq h h'
  have hown : own.foldl EncPart.after s'.encPart = is.foldl EncPart.after s'.encPart :=
    foldl_filter_of_idle (fun i p hi => by cases i <;> trivial) is _
  have hpart : t.encPart = t'.encPart := by
    rw [steps_presents_encPart hin h, steps_presents_encPart hin' h', hown]
    simp only [State.encPart, henc, hencO, hseq]
  exact ⟨congrArg EncPart.enc hpart, congrArg EncPart.encO hpart, congrArg EncPart.seqEnc hpart⟩

/-- Settles O36, as O35 with the decoder's part of the state. -/
theorem decoderIsBlindToInterleavedCommands : Obligations.DecoderIsBlindToInterleavedCommands := by
  intro is s s' t t' own hin hin' hdec hdecO hseq h h'
  have hown : own.foldl DecPart.after s'.decPart = is.foldl DecPart.after s'.decPart :=
    foldl_filter_of_idle (fun i p hi => by cases i <;> trivial) is _
  have hpart : t.decPart = t'.decPart := by
    rw [steps_presents_decPart hin h, steps_presents_decPart hin' h', hown]
    simp only [State.decPart, hdec, hdecO, hseq]
  exact ⟨congrArg DecPart.dec hpart, congrArg DecPart.decO hpart, congrArg DecPart.seqDec hpart⟩

/-- Settles O37: mapping each chunk and joining is joining the chunks and mapping. -/
theorem chunkBoundariesAreInvisible : Obligations.ChunkBoundariesAreInvisible := by
  intro u chunks
  simp [encodeChunks, encodeStream, decodeChunks, decodeStream, List.flatMap_def, List.map_flatten]

/-- Settles O48: the output is the symbols' characters, padding and newlines, and the symbols are the bits of the
bytes. -/
theorem symbolsAreTheBytesBitsSixAtATime : Obligations.SymbolsAreTheBytesBitsSixAtATime := by
  intro u bytes s t rest hin h
  refine ⟨charsOut u 0 (streamChars u bytes), Reference.symbols bytes,
    congrArg EncPart.encO (encodeStream_encPart hin h), ?_, Reference.symbols_length bytes,
    fun k j hk hj => Reference.symbols_getMsbD bytes hk hj⟩
  rw [filter_recognized_charsOut, filter_recognized_streamChars]

end Sys2Proof.Machine
end

section
/-! SUPPORT. Words and their fields (30_encoding.md R70 to R74): what a row of the opcode map matches, that the words
which decode as a command are exactly the commands' words, and that these are the words the field table allows. -/

namespace Sys2Proof

/-! ### A word and its fields -/

/-- A word is its four fields side by side (30_encoding.md R70). -/
theorem append_fields (w : Word) :
    CmdWord.op w ++ w.extractLsb' 9 3 ++ BitVec.ofBool (fieldU w) ++ fieldD8 w = w := by
  have hu : BitVec.ofBool (fieldU w) = w.extractLsb' 8 1 := by
    ext k hk
    obtain rfl : k = 0 := by omega
    simp [fieldU]
  rw [hu, CmdWord.op, fieldD8, BitVec.extractLsb'_append_extractLsb'_eq_extractLsb' (start₁ := 9) (start₂ := 12) rfl,
    BitVec.extractLsb'_append_extractLsb'_eq_extractLsb' (start₁ := 8) (start₂ := 9) rfl,
    BitVec.extractLsb'_append_extractLsb'_eq_extractLsb' (start₁ := 0) (start₂ := 8) rfl, BitVec.extractLsb'_eq_self]

theorem wordOf_fields {w : Word} (h : CmdWord.reservedZero w = true) :
    wordOf (CmdWord.op w) (fieldU w) (fieldD8 w) = w := by
  rw [CmdWord.reservedZero, beq_iff_eq] at h
  conv_rhs => rw [← append_fields w, h]
  rfl

theorem wordOf_or_wordOf (a b : BitVec 4) (u v : Bool) (x y : Byte) :
    wordOf a u x ||| wordOf b v y = wordOf (a ||| b) (u || v) (x ||| y) := by
  simp only [wordOf]
  refine BitVec.or_append.trans ?_
  rw [BitVec.or_append, BitVec.or_append]
  simp

/-- A mask without opcode and reserved bits cuts the word's two operand fields. -/
theorem and_wordOf (w : Word) (u : Bool) (m : Byte) :
    w &&& wordOf 0 u m = wordOf 0 (fieldU w && u) (fieldD8 w &&& m) := by
  conv_lhs => rw [← append_fields w]
  refine BitVec.and_append.trans ?_
  rw [BitVec.and_append, BitVec.and_append]
  simp [wordOf]

theorem wordOf_operands (op : BitVec 4) (w : Word) (u : Bool) (m : Byte) :
    wordOf op (fieldU w && u) (fieldD8 w &&& m) = wordOf op false 0 ||| (w &&& wordOf 0 u m) := by
  rw [and_wordOf, wordOf_or_wordOf, Bool.false_or]
  exact congrArg₂ (wordOf · _ ·) BitVec.or_zero.symm BitVec.zero_or.symm

theorem fieldIX_setWidth (w : Word) : (fieldIX w).setWidth 8 = fieldD8 w &&& 0x3F := by
  ext k hk
  simp only [fieldIX, fieldD8]
  interval_cases k <;> simp

theorem fieldSEL_setWidth (w : Word) : (fieldSEL w).setWidth 8 = fieldD8 w &&& 0x03 := by
  ext k hk
  simp only [fieldSEL, fieldD8]
  interval_cases k <;> simp

theorem fieldD8_and_allOnes (w : Word) : fieldD8 w &&& 0xFF = fieldD8 w := BitVec.and_allOnes

theorem getLsbD_wordOf (op : BitVec 4) (u : Bool) (low : Byte) : (wordOf op u low).getLsbD 8 = u := by
  simp only [wordOf, BitVec.getLsbD_append]
  simp

theorem toNat_wordOf_mod (op : BitVec 4) (u : Bool) (low : Byte) :
    (wordOf op u low).toNat % 256 = low.toNat :=
  congrArg BitVec.toNat (BitVec.setWidth_append_eq_right (a := op ++ 0#3 ++ BitVec.ofBool u) (b := low))

theorem toNat_wordOf_setWidth_mod (op : BitVec 4) (u : Bool) {k : Nat} (hk : k ≤ 8) (v : BitVec k) :
    (wordOf op u (v.setWidth 8)).toNat % 2 ^ k = v.toNat := by
  rw [← Nat.mod_mod_of_dvd _ (Nat.pow_dvd_pow 2 hk : 2 ^ k ∣ 256), toNat_wordOf_mod,
    BitVec.toNat_setWidth_of_le hk, Nat.mod_eq_of_lt v.isLt]

/-! ### The rows of the opcode map -/

/-- The command that a row reads from any word has the row's fixed bits and the word's operand bits. -/
theorem encode_build {r : OpcodeRow} (hr : r ∈ opcodeRows) (w : Word) :
    encode (r.build w) = r.pattern ||| (w &&& ~~~r.mask) := by
  simp only [opcodeRows, List.mem_cons, List.not_mem_nil, or_false] at hr
  obtain rfl | rfl | rfl | rfl | rfl | rfl | rfl | rfl | rfl := hr
  · exact .trans (by simp [encode]) (wordOf_operands 0 w false 0)
  · exact .trans (by simp [encode]) (wordOf_operands 1 w true 0)
  · exact .trans (by rw [fieldD8_and_allOnes, Bool.and_false]; rfl) (wordOf_operands 2 w false 0xFF)
  · exact .trans (by simp [encode]) (wordOf_operands 3 w false 0)
  · exact .trans (by simp [encode]) (wordOf_operands 4 w true 0)
  · exact .trans (by rw [fieldD8_and_allOnes, Bool.and_false]; rfl) (wordOf_operands 5 w false 0xFF)
  · exact .trans (by simp [encode, fieldIX_setWidth]) (wordOf_operands 6 w true 0x3F)
  · exact .trans (by rw [fieldD8_and_allOnes, Bool.and_true]; rfl) (wordOf_operands 7 w true 0xFF)
  · exact .trans (by simp [encode, fieldSEL_setWidth]) (wordOf_operands 8 w false 0x03)

theorem or_and_not_eq_iff {n : Nat} {p m : BitVec n} (hpm : p &&& m = p) (w : BitVec n) :
    p ||| (w &&& ~~~m) = w ↔ w &&& m = p := by
  constructor
  · intro h
    rw [← h, BitVec.and_or_distrib_right, hpm, BitVec.and_assoc]
    simp
  · rintro rfl
    rw [← BitVec.and_or_distrib_left]
    simp

theorem pattern_and_mask : ∀ r ∈ opcodeRows, r.pattern &&& r.mask = r.pattern := by simp [opcodeRows]

/-- A word matches a row exactly when it is the word of the command that the row reads from it. -/
theorem encode_build_eq_iff {r : OpcodeRow} (hr : r ∈ opcodeRows) (w : Word) :
    encode (r.build w) = w ↔ w &&& r.mask = r.pattern := by
  rw [encode_build hr, or_and_not_eq_iff (pattern_and_mask r hr)]

/-! ### What a word decodes as -/

theorem exists_row_of_decodeRows {rows : List OpcodeRow} {w : Word} {i : Instr}
    (h : decodeRows rows w = .command i) : ∃ r ∈ rows, w &&& r.mask = r.pattern ∧ r.build w = i := by
  induction rows with
  | nil => cases h
  | cons r rows ih =>
    by_cases hm : w &&& r.mask = r.pattern
    · simp only [decodeRows, if_pos hm] at h
      exact ⟨r, List.mem_cons_self, hm, Decoded.command.inj h⟩
    · simp only [decodeRows, if_neg hm] at h
      obtain ⟨r', hr', h'⟩ := ih h
      exact ⟨r', List.mem_cons_of_mem r hr', h'⟩

theorem decodeRows_eq_illegal_iff {rows : List OpcodeRow} {w : Word} :
    decodeRows rows w = .illegal ↔ ∀ r ∈ rows, ¬ w &&& r.mask = r.pattern := by
  induction rows with
  | nil => simp [decodeRows]
  | cons r rows ih => by_cases hm : w &&& r.mask = r.pattern <;> simp [decodeRows, hm, ih]

/-- The words that decode as a command are the one word of that command. -/
theorem decode_eq_command_iff {w : Word} {i : Instr} : decode w = .command i ↔ encode i = w := by
  constructor
  · intro h
    obtain ⟨r, hr, hm, rfl⟩ := exists_row_of_decodeRows h
    exact (encode_build_eq_iff hr w).2 hm
  · rintro rfl
    exact decode_encode i

theorem decode_eq_build_iff {r : OpcodeRow} (hr : r ∈ opcodeRows) (w : Word) :
    decode w = .command (r.build w) ↔ w &&& r.mask = r.pattern := by
  rw [decode_eq_command_iff, encode_build_eq_iff hr]

theorem decode_eq_illegal_iff {w : Word} : decode w = .illegal ↔ ¬ ∃ i, decode w = .command i := by
  cases decode w <;> simp

theorem encode_injective : Function.Injective encode :=
  fun _ _ h => Decoded.command.inj (by rw [← decode_encode, h, decode_encode])

/-! ### The field table -/

theorem encode_legal (i : Instr) : CmdWord.legal (encode i) = true := by
  open Laws.EncodesLegal in
  cases i with
  | nop => exact nop
  | encStart u => exact encStart u
  | encByte d8 => exact encByte d8
  | encFinal => exact encFinal
  | decStart u => exact decStart u
  | decSym d8 => exact decSym d8
  | lutFwd u ix => exact lutFwd u ix
  | lutRev u d8 => exact lutRev u d8
  | rdStat sel => exact rdStat sel

theorem eq_zero_of_and_allOnes {b : Byte} (h : b &&& 0xFF = 0) : b = 0 := BitVec.and_allOnes.symm.trans h

/-- Fields that the field table allows are the fields of a command, one opcode at a time. -/
theorem exists_encode_eq_wordOf {op : BitVec 4} {u : Bool} {low : Byte} (hop : op ≤ 8)
    (hu : CmdWord.usesU op = false → u = false) (hlow : low &&& ~~~CmdWord.operandMask op = 0) :
    ∃ i, encode i = wordOf op u low := by
  have hops : ∀ o : BitVec 4, o ≤ 8 → o ∈ [0, 1, 2, 3, 4, 5, 6, 7, 8] := by decide
  have hmem := hops op hop
  simp only [List.mem_cons, List.not_mem_nil, or_false] at hmem
  obtain rfl | rfl | rfl | rfl | rfl | rfl | rfl | rfl | rfl := hmem
  · obtain rfl := hu rfl
    obtain rfl := eq_zero_of_and_allOnes hlow
    exact ⟨.nop, rfl⟩
  · obtain rfl := eq_zero_of_and_allOnes hlow
    exact ⟨.encStart u, rfl⟩
  · obtain rfl := hu rfl
    exact ⟨.encByte low, rfl⟩
  · obtain rfl := hu rfl
    obtain rfl := eq_zero_of_and_allOnes hlow
    exact ⟨.encFinal, rfl⟩
  · obtain rfl := eq_zero_of_and_allOnes hlow
    exact ⟨.decStart u, rfl⟩
  · obtain rfl := hu rfl
    exact ⟨.decSym low, rfl⟩
  · have hix : (low.extractLsb' 0 6).setWidth 8 = low := by revert low; decide
    exact ⟨.lutFwd u (low.extractLsb' 0 6), congrArg (wordOf 6 u) hix⟩
  · exact ⟨.lutRev u low, rfl⟩
  · obtain rfl := hu rfl
    have hsel : (low.extractLsb' 0 2).setWidth 8 = low := by revert low; decide
    exact ⟨.rdStat (low.extractLsb' 0 2), congrArg (wordOf 8 false) hsel⟩

/-- The legal words of the field table are the commands' words. -/
theorem legal_iff {w : Word} : CmdWord.legal w = true ↔ ∃ i, encode i = w := by
  constructor
  · intro h
    simp only [CmdWord.legal, Bool.and_eq_true] at h
    obtain ⟨⟨⟨hop, hres⟩, hu⟩, hlow⟩ := h
    rw [← wordOf_fields hres]
    refine exists_encode_eq_wordOf (of_decide_eq_true hop) (fun hU => ?_) (beq_iff_eq.1 hlow)
    rwa [CmdWord.alphabetBitLegal, hU, Bool.false_or, Bool.not_eq_true'] at hu
  · rintro ⟨i, rfl⟩
    exact encode_legal i

end Sys2Proof

namespace Sys2Proof.Machine

theorem step_of_illegal {s : State} {w : Word} {rest : List HostEvent} (hin : s.hostIn = .command w :: rest)
    (hw : decode w = .illegal) : step s = .next (raise .ill (s.setHostIn rest)) := by
  simp only [step, takeInput, hin, hw, presentIllegal]

end Sys2Proof.Machine
end

section
/-! SUPPORT. Counting words (30_encoding.md R75): a word per command, so a row has as many words as its operands have
values. -/

namespace Sys2Proof

theorem exactlyWords_iff_ncard {n : Nat} {P : Word → Prop} :
    Reference.exactlyWords n P ↔ {w | P w}.ncard = n := by
  constructor
  · rintro ⟨ws, hnodup, hlen, hmem⟩
    have hset : {w | P w} = ↑ws.toFinset := by ext w; simp [hmem]
    rw [hset, Set.ncard_coe_finset, List.toFinset_card_of_nodup hnodup, hlen]
  · intro h
    have hfin : {w | P w}.Finite := Set.toFinite _
    refine ⟨hfin.toFinset.toList, Finset.nodup_toList _, ?_, by simp⟩
    rw [Finset.length_toList, ← Set.ncard_eq_toFinset_card _ hfin, h]

/-- Commands that differ for different operands have as many words as there are operands. -/
theorem exactlyWords_of_injective {α : Type} {n : Nat} {P : Word → Prop} {c : α → Instr} (hc : Function.Injective c)
    (hcard : Nat.card α = n) (hP : ∀ w, P w ↔ ∃ a, decode w = .command (c a)) : Reference.exactlyWords n P := by
  have hrange : {w | P w} = Set.range (encode ∘ c) := by
    ext w
    simp [hP, decode_eq_command_iff]
  rw [exactlyWords_iff_ncard, hrange, Set.ncard_range_of_injective (encode_injective.comp hc), hcard]

theorem natCard_bitVec (n : Nat) : Nat.card (BitVec n) = 2 ^ n := by
  rw [Nat.card_congr BitVec.equivFin.toEquiv, Nat.card_fin]

theorem natCard_bool : Nat.card Bool = 2 := by simp

theorem natCard_bool_prod (n : Nat) : Nat.card (Bool × BitVec n) = 2 * 2 ^ n := by
  rw [Nat.card_prod, natCard_bitVec, natCard_bool]

theorem exactlyWords_not {m n : Nat} {P : Word → Prop} (h : Reference.exactlyWords m P) (hmn : m + n = 2 ^ 16) :
    Reference.exactlyWords n (fun w => ¬ P w) := by
  rw [exactlyWords_iff_ncard] at h ⊢
  have hsum := Set.ncard_add_ncard_compl {w | P w}
  rw [h, natCard_bitVec, ← hmn] at hsum
  exact Nat.add_left_cancel hsum

/-- The operands of a command, one summand per row of the opcode map (30_encoding.md R72). -/
abbrev RowOperands : Type :=
  Unit ⊕ Bool ⊕ Byte ⊕ Unit ⊕ Bool ⊕ Byte ⊕ (Bool × Sym) ⊕ (Bool × Byte) ⊕ BitVec 2

/-- A command is a row with its operands. -/
def Instr.equivRowOperands : Instr ≃ RowOperands where
  toFun
    | .nop => .inl ()
    | .encStart u => .inr (.inl u)
    | .encByte d8 => .inr (.inr (.inl d8))
    | .encFinal => .inr (.inr (.inr (.inl ())))
    | .decStart u => .inr (.inr (.inr (.inr (.inl u))))
    | .decSym d8 => .inr (.inr (.inr (.inr (.inr (.inl d8)))))
    | .lutFwd u ix => .inr (.inr (.inr (.inr (.inr (.inr (.inl (u, ix)))))))
    | .lutRev u d8 => .inr (.inr (.inr (.inr (.inr (.inr (.inr (.inl (u, d8))))))))
    | .rdStat sel => .inr (.inr (.inr (.inr (.inr (.inr (.inr (.inr sel)))))))
  invFun := Sum.elim (fun _ => .nop) <| Sum.elim .encStart <| Sum.elim .encByte <| Sum.elim (fun _ => .encFinal) <|
    Sum.elim .decStart <| Sum.elim .decSym <| Sum.elim (fun p => .lutFwd p.1 p.2) <|
    Sum.elim (fun p => .lutRev p.1 p.2) .rdStat
  left_inv i := by cases i <;> rfl
  right_inv := by rintro (_ | _ | _ | _ | _ | _ | _ | _ | _) <;> rfl

theorem natCard_instr : Nat.card Instr = 1162 := by
  rw [Nat.card_congr Instr.equivRowOperands]
  simp only [Nat.card_sum, natCard_bool_prod, natCard_bitVec, natCard_bool, Nat.card_unique, Nat.reducePow,
    Nat.reduceAdd, Nat.reduceMul]

theorem exactlyWords_command : Reference.exactlyWords 1162 (fun w => ∃ i, decode w = .command i) :=
  exactlyWords_of_injective (c := id) Function.injective_id natCard_instr fun _ => .rfl

end Sys2Proof
end

section
/-! SUPPORT. The assembler (30_encoding.md R76, R77): the one shape of each mnemonic's operands, what each command with
a numeric operand assembles to, and what a decimal number is as an operand. -/

namespace Sys2Proof.Assembler

theorem assemble_legal {line : List Char} {ws : List Word} (h : assemble line = some ws) :
    ∀ w ∈ ws, CmdWord.legal w = true := by
  obtain ⟨is, -, rfl⟩ := Option.map_eq_some_iff.1 h
  intro w hw
  obtain ⟨i, -, rfl⟩ := List.mem_map.1 hw
  exact encode_legal i

/-! ### The shape of each mnemonic's operands -/

theorem plain_mnemonic {m : List Char} {i : Instr} (h : plain m = some i) :
    m ∈ ["NOP".toList, "ENC_FINAL".toList] := by
  by_contra hm
  simp only [List.mem_cons, List.not_mem_nil, not_or] at hm
  obtain ⟨h0, h1, -⟩ := hm
  rw [plain, if_neg h0, if_neg h1] at h
  cases h

theorem unary_mnemonic {m : List Char} {a : Token} {i : Instr} (h : unary m a = some i) :
    m ∈ ["ENC_START".toList, "ENC_BYTE".toList, "DEC_START".toList, "DEC_SYM".toList, "RD_STAT".toList] := by
  by_contra hm
  simp only [List.mem_cons, List.not_mem_nil, not_or] at hm
  obtain ⟨h0, h1, h2, h3, h4, -⟩ := hm
  rw [unary, if_neg h0, if_neg h1, if_neg h2, if_neg h3, if_neg h4] at h
  cases h

theorem binary_mnemonic {m : List Char} {a b : Token} {i : Instr} (h : binary m a b = some i) :
    m ∈ ["LUT_FWD".toList, "LUT_REV".toList] := by
  by_contra hm
  simp only [List.mem_cons, List.not_mem_nil, not_or] at hm
  obtain ⟨h0, h1, -⟩ := hm
  rw [binary, if_neg h0, if_neg h1] at h
  cases h

theorem pseudo_mnemonic {m : List Char} {u : Bool} {bs : List Byte} {is : List Instr} (h : pseudo m u bs = some is) :
    m ∈ ["ENCODE".toList, "DECODE".toList] := by
  by_contra hm
  simp only [List.mem_cons, List.not_mem_nil, not_or] at hm
  obtain ⟨h0, h1, -⟩ := hm
  rw [pseudo, if_neg h0, if_neg h1] at h
  cases h

theorem commands_shape {ts : List Token} {is : List Instr} (h : commands ts = some is) :
    ∃ (m : List Char) (operands : List Token), ts = .word m :: operands ∧
      ((m ∈ ["NOP".toList, "ENC_FINAL".toList] ∧ operands = []) ∨
       (m ∈ ["ENC_START".toList, "ENC_BYTE".toList, "DEC_START".toList, "DEC_SYM".toList, "RD_STAT".toList] ∧
         ∃ a, operands = [a]) ∨
       (m ∈ ["LUT_FWD".toList, "LUT_REV".toList] ∧ ∃ a b, operands = [a, .comma, b]) ∨
       (m ∈ ["ENCODE".toList, "DECODE".toList] ∧ ∃ a rest, operands = a :: .comma :: .openList :: rest)) := by
  unfold commands at h
  split at h
  next m =>
    obtain ⟨i, hi, -⟩ := Option.map_eq_some_iff.1 h
    exact ⟨m, _, rfl, .inl ⟨plain_mnemonic hi, rfl⟩⟩
  next m a =>
    obtain ⟨i, hi, -⟩ := Option.map_eq_some_iff.1 h
    exact ⟨m, _, rfl, .inr (.inl ⟨unary_mnemonic hi, a, rfl⟩)⟩
  next m a b =>
    obtain ⟨i, hi, -⟩ := Option.map_eq_some_iff.1 h
    exact ⟨m, _, rfl, .inr (.inr (.inl ⟨binary_mnemonic hi, a, b, rfl⟩))⟩
  next m a rest _ =>
    obtain ⟨u, -, hu⟩ := Option.bind_eq_some_iff.1 h
    obtain ⟨bs, -, hbs⟩ := Option.bind_eq_some_iff.1 hu
    exact ⟨m, _, rfl, .inr (.inr (.inr ⟨pseudo_mnemonic hbs, a, rest, rfl⟩))⟩
  next => cases h

/-! ### The commands with a numeric operand -/

theorem commands_encByte (t : Token) :
    commands [.word "ENC_BYTE".toList, t] = (byte t).map fun b => [.encByte b] := Option.map_map _ _ _

theorem commands_decSym (t : Token) :
    commands [.word "DEC_SYM".toList, t] = (byte t).map fun b => [.decSym b] := Option.map_map _ _ _

theorem commands_rdStat (t : Token) :
    commands [.word "RD_STAT".toList, t] = (select t).map fun sel => [.rdStat sel] := Option.map_map _ _ _

theorem commands_lutFwd (a t : Token) :
    commands [.word "LUT_FWD".toList, a, .comma, t] =
      (alphabet a).bind fun u => (index t).map fun ix => [.lutFwd u ix] := by
  rw [commands, binary, if_pos rfl]
  cases alphabet a with
  | none => rfl
  | some u => exact Option.map_map _ _ _

theorem commands_lutRev (a t : Token) :
    commands [.word "LUT_REV".toList, a, .comma, t] =
      (alphabet a).bind fun u => (byte t).map fun b => [.lutRev u b] := by
  rw [commands, binary, if_neg (by decide), if_pos rfl]
  cases alphabet a with
  | none => rfl
  | some u => exact Option.map_map _ _ _

/-! ### Byte lists: a token that is neither a byte nor a mark of the list spoils the list -/

section
variable {t : Token} (hbyte : byte t = none) (hclose : t ≠ .closeList) (hcomma : t ≠ .comma)
include hbyte hclose hcomma

theorem bytesTail_eq_none {ts : List Token} (hmem : t ∈ ts) : bytesTail ts = none := by
  induction ts using bytesTail.induct with
  | case1 => exact absurd (List.mem_singleton.1 hmem) hclose
  | case2 b rest ih =>
    obtain h | rfl | h : t = .comma ∨ t = b ∨ t ∈ rest := by simpa using hmem
    · exact absurd h hcomma
    · rw [bytesTail, hbyte, Option.bind_none]
    · simp [bytesTail, ih h]
  | case3 ts hclosed hcons => rw [bytesTail] <;> assumption

theorem bytes_eq_none {ts : List Token} (hmem : t ∈ ts) : bytes ts = none := by
  unfold bytes
  split
  · exact absurd (List.mem_singleton.1 hmem) hclose
  next b rest _ =>
    obtain rfl | h := List.mem_cons.1 hmem
    · rw [hbyte, Option.bind_none]
    · simp [bytesTail_eq_none hbyte hclose hcomma h]
  · rfl

theorem commands_byteList_eq_none (m : List Char) (a : Token) {rest : List Token} (hmem : t ∈ rest) :
    commands (.word m :: a :: .comma :: .openList :: rest) = none := by
  cases rest with
  | nil => cases hmem
  | cons b rest => simp [commands, bytes_eq_none hbyte hclose hcomma hmem]

end

/-! ### A decimal number as an operand -/

section
variable {digits : List Char} {n : Nat} (h : decimal digits = some n)
include h

theorem byte_number : byte (.word digits) = inRange 8 256 n := by
  unfold byte
  split
  next hd l he =>
    obtain rfl := Token.word.inj he
    cases h
  next cs _ he =>
    obtain rfl := Token.word.inj he
    rw [h, Option.bind_some]
  next he => cases he
  next _ he _ => exact absurd rfl (he digits)

theorem index_number : index (.word digits) = inRange 6 64 n := by rw [index, h, Option.bind_some]

/-- No register's name is a number, so a number is read as one. -/
theorem select_number : select (.word digits) = inRange 2 4 n := by
  have hnames : ∀ name ∈ ["ENC_STATUS".toList, "ENC_LINE".toList, "DEC_STATUS".toList, "ERR_STATUS".toList],
      decimal name = none := by decide
  have hne : ∀ name ∈ ["ENC_STATUS".toList, "ENC_LINE".toList, "DEC_STATUS".toList, "ERR_STATUS".toList],
      digits ≠ name := by
    rintro name hmem rfl
    simp [hnames _ hmem] at h
  simp only [List.forall_mem_cons] at hne
  obtain ⟨h0, h1, h2, h3, -⟩ := hne
  rw [select, if_neg h0, if_neg h1, if_neg h2, if_neg h3, h, Option.bind_some]

end

theorem inRange_of_lt {w bound n : Nat} (h : n < bound) : inRange w bound n = some (BitVec.ofNat w n) := if_pos h

theorem inRange_of_le {w bound n : Nat} (h : bound ≤ n) : inRange w bound n = none := if_neg (Nat.not_lt.2 h)

end Sys2Proof.Assembler
end

section
/-! CERTIFICATES. The obligations of 30_encoding.md. -/

namespace Sys2Proof.Machine

/-- Settles O1, by cases on the command. -/
theorem decodeOfEncodeIsTheCommand : Obligations.DecodeOfEncodeIsTheCommand :=
  decode_encode

/-- Settles O2: the matched row's fixed bits and the word's operand bits are the whole word. -/
theorem encodeOfDecodedWordIsTheWord : Obligations.EncodeOfDecodedWordIsTheWord :=
  fun _ _ => decode_eq_command_iff.1

/-- Settles O3, row by row. -/
theorem wordDecodesExactlyByItsRow : Obligations.WordDecodesExactlyByItsRow := by
  intro w
  have hrows (r : OpcodeRow) (hr : r ∈ opcodeRows) := decode_eq_build_iff hr w
  simp only [opcodeRows, List.forall_mem_cons, List.not_mem_nil, false_implies, implies_true, and_true] at hrows
  obtain ⟨h0, h1, h2, h3, h4, h5, h6, h7, h8⟩ := hrows
  refine ⟨h0, h1, h2, h3, h4, h5, h6, h7, h8, ?_, fun hw s rest hin => ⟨_, step_of_illegal hin hw, rfl⟩⟩
  rw [decode, decodeRows_eq_illegal_iff]
  simp [opcodeRows]

/-- Settles O4: the decoded word is the command's word, whose fields are the operands. -/
theorem operandsAreTheWordsFields : Obligations.OperandsAreTheWordsFields := by
  intro w i h
  obtain rfl := decode_eq_command_iff.1 h
  cases i with
  | nop => trivial
  | encStart u => exact (getLsbD_wordOf _ u _).symm
  | encByte d8 => exact (toNat_wordOf_mod _ _ d8).symm
  | encFinal => trivial
  | decStart u => exact (getLsbD_wordOf _ u _).symm
  | decSym d8 => exact (toNat_wordOf_mod _ _ d8).symm
  | lutFwd u ix => exact ⟨(getLsbD_wordOf _ u _).symm, (toNat_wordOf_setWidth_mod _ u (by decide) ix).symm⟩
  | lutRev u d8 => exact ⟨(getLsbD_wordOf _ u _).symm, (toNat_wordOf_mod _ u d8).symm⟩
  | rdStat sel => exact (toNat_wordOf_setWidth_mod _ _ (by decide) sel).symm

/-- Settles O5: the words of commands are on the one side those that decode, on the other the legal ones. -/
theorem illegalWordsAreThoseTheFieldTableRefuses : Obligations.IllegalWordsAreThoseTheFieldTableRefuses := by
  intro w
  simp only [decode_eq_illegal_iff, decode_eq_command_iff, ← legal_iff, Bool.not_eq_true]

/-- Settles O6: each row by the number of its operands' values, all rows by the number of commands. -/
theorem legalWordCounts : Obligations.LegalWordCounts := by
  refine ⟨?_, ?_, ?_, ?_, ?_, ?_, ?_, ?_, ?_, exactlyWords_command, ?_⟩
  · exact exactlyWords_of_injective (α := Unit) (c := fun _ => .nop) (fun _ _ _ => rfl) Nat.card_unique (by simp)
  · exact exactlyWords_of_injective (fun _ _ => Instr.encStart.inj) natCard_bool fun _ => .rfl
  · exact exactlyWords_of_injective (fun _ _ => Instr.encByte.inj) (natCard_bitVec 8) fun _ => .rfl
  · exact exactlyWords_of_injective (α := Unit) (c := fun _ => .encFinal) (fun _ _ _ => rfl) Nat.card_unique (by simp)
  · exact exactlyWords_of_injective (fun _ _ => Instr.decStart.inj) natCard_bool fun _ => .rfl
  · exact exactlyWords_of_injective (fun _ _ => Instr.decSym.inj) (natCard_bitVec 8) fun _ => .rfl
  · exact exactlyWords_of_injective (c := fun p : Bool × Sym => .lutFwd p.1 p.2)
      (fun _ _ h => Prod.ext_iff.2 (Instr.lutFwd.inj h)) (natCard_bool_prod 6) (by simp)
  · exact exactlyWords_of_injective (c := fun p : Bool × Byte => .lutRev p.1 p.2)
      (fun _ _ h => Prod.ext_iff.2 (Instr.lutRev.inj h)) (natCard_bool_prod 8) (by simp)
  · exact exactlyWords_of_injective (fun _ _ => Instr.rdStat.inj) (natCard_bitVec 2) fun _ => .rfl
  · simp only [decode_eq_illegal_iff]
    exact exactlyWords_not exactlyWords_command rfl

/-- Settles O7. -/
theorem workedEncodings : Obligations.WorkedEncodings := by
  unfold Obligations.WorkedEncodings
  decide

/-- Settles O8: a number is the operand it names below its field's bound and no operand from there on. -/
theorem assembledWordsAreLegal : Obligations.AssembledWordsAreLegal := by
  refine ⟨fun _ _ => Assembler.assemble_legal, fun _ _ => Assembler.commands_shape, fun digits n h => ?_, by decide⟩
  have hbyte := Assembler.byte_number h
  have hindex := Assembler.index_number h
  have hselect := Assembler.select_number h
  refine ⟨fun hn => ?_, fun hn a => ?_, fun hn => ?_, fun hn => ?_, fun hn => ?_, fun hn => ?_⟩
  · rw [Assembler.inRange_of_le hn] at hbyte
    refine ⟨?_, ?_, fun a => ?_, fun m a rest => Assembler.commands_byteList_eq_none hbyte nofun nofun m a⟩
    · rw [Assembler.commands_encByte, hbyte, Option.map_none]
    · rw [Assembler.commands_decSym, hbyte, Option.map_none]
    · rw [Assembler.commands_lutRev, hbyte]
      simp
  · rw [Assembler.commands_lutFwd, hindex, Assembler.inRange_of_le hn]
    simp
  · rw [Assembler.commands_rdStat, hselect, Assembler.inRange_of_le hn, Option.map_none]
  · rw [Assembler.inRange_of_lt hn] at hbyte
    rw [Assembler.commands_encByte, Assembler.commands_decSym, Assembler.commands_lutRev, hbyte]
    exact ⟨rfl, rfl, rfl⟩
  · rw [Assembler.commands_lutFwd, hindex, Assembler.inRange_of_lt hn]
    rfl
  · rw [Assembler.commands_rdStat, hselect, Assembler.inRange_of_lt hn]
    rfl

end Sys2Proof.Machine
end

section
/-! SUPPORT. A word with a reserved bit set is illegal (30_encoding.md R74), said once for every opcode. -/

namespace Sys2Proof

/-- A word of an opcode all of whose rows fix the bits `res` to 0 is illegal when one of these bits is set. -/
theorem decode_eq_illegal_of_reserved {w op res : Word} (hop : w &&& 0xF000 = op) (hres : w &&& res ≠ 0)
    (hrows : ∀ r ∈ opcodeRows, r.pattern &&& 0xF000 = op → r.mask &&& res = res ∧ r.pattern &&& res = 0) :
    decode w = .illegal := by
  rw [decode, decodeRows_eq_illegal_iff]
  intro r hr hm
  have hmask : ∀ r ∈ opcodeRows, r.mask &&& 0xF000 = 0xF000 := by decide
  have hrow : r.pattern &&& 0xF000 = op := by rw [← hm, BitVec.and_assoc, hmask r hr, hop]
  obtain ⟨hcover, hzero⟩ := hrows r hr hrow
  rw [← hm, BitVec.and_assoc, hcover] at hzero
  exact hres hzero

end Sys2Proof
end

section
/-! SUPPORT. The two tables as each other's inverse (41_alphabet_lut.md R100 to R102), and what the queries of R104 and
R105 answer. -/

namespace Sys2Proof.Machine

/-! ### The forward table, run by run -/

section
variable (u : Bool) {i : Sym}

theorem fwdEntry_upper (h : i.toNat ≤ 25) : fwdEntry u i = BitVec.ofNat 8 (0x41 + i.toNat) := if_pos h

theorem fwdEntry_lower (h : 26 ≤ i.toNat) (h' : i.toNat ≤ 51) :
    fwdEntry u i = BitVec.ofNat 8 (0x61 + (i.toNat - 26)) :=
  (if_neg (by omega)).trans (if_pos h')

theorem fwdEntry_digit (h : 52 ≤ i.toNat) (h' : i.toNat ≤ 61) :
    fwdEntry u i = BitVec.ofNat 8 (0x30 + (i.toNat - 52)) :=
  (if_neg (by omega)).trans ((if_neg (by omega)).trans (if_pos h'))

end

/-- Both alphabets have the same first 62 symbols. -/
theorem fwdEntry_eq_of_le (u v : Bool) {i : Sym} (h : i.toNat ≤ 61) : fwdEntry u i = fwdEntry v i := by
  obtain hi | ⟨hi, hi'⟩ | hi : i.toNat ≤ 25 ∨ (26 ≤ i.toNat ∧ i.toNat ≤ 51) ∨ 52 ≤ i.toNat := by omega
  · rw [fwdEntry_upper u hi, fwdEntry_upper v hi]
  · rw [fwdEntry_lower u hi hi', fwdEntry_lower v hi hi']
  · rw [fwdEntry_digit u hi h, fwdEntry_digit v hi h]

/-! ### The reverse table is the inverse -/

/-- The 128 entries of the forward table, looked up one by one. -/
@[simp] theorem revEntry_fwdEntry (u : Bool) (i : Sym) : revEntry u (fwdEntry u i) = revFound i := by
  revert u i; decide

theorem fwdEntry_injective (u : Bool) : Function.Injective (fwdEntry u) := by
  intro i j h
  rw [← revIDX_revFound i, ← revEntry_fwdEntry u, h, revEntry_fwdEntry, revIDX_revFound]

/-- A byte of a run of the table is the run's first byte plus its distance from it. -/
theorem ofNat_add_sub_eq {x : Byte} {first : Nat} (h : first ≤ x.toNat) :
    BitVec.ofNat 8 (first + (x.toNat - first)) = x := by
  rw [Nat.add_sub_cancel' h, BitVec.ofNat_toNat, BitVec.setWidth_eq]

theorem toNat_ofNat_sym {k : Nat} (h : k ≤ 63) : (BitVec.ofNat 6 k : Sym).toNat = k :=
  (BitVec.toNat_ofNat k 6).trans (Nat.mod_eq_of_lt (by omega))

/-- Every entry of the reverse table is the index of its byte or the entry of a byte not found. -/
theorem revEntry_cases (u : Bool) (x : Byte) :
    (∃ i, fwdEntry u i = x ∧ revEntry u x = revFound i) ∨ revEntry u x = revNotFound := by
  fun_cases revEntry u x
  next n h =>
    have hk := toNat_ofNat_sym (k := n - 0x41) (by omega)
    exact .inl ⟨_, by rw [fwdEntry_upper u (by omega), hk, ofNat_add_sub_eq h.1], rfl⟩
  next n _ h =>
    have hk := toNat_ofNat_sym (k := n - 0x61 + 26) (by omega)
    exact .inl ⟨_, by rw [fwdEntry_lower u (by omega) (by omega), hk, Nat.add_sub_cancel, ofNat_add_sub_eq h.1], rfl⟩
  next n _ _ h =>
    have hk := toNat_ofNat_sym (k := n - 0x30 + 52) (by omega)
    exact .inl ⟨_, by rw [fwdEntry_digit u (by omega) (by omega), hk, Nat.add_sub_cancel, ofNat_add_sub_eq h.1], rfl⟩
  next h => obtain ⟨hx, rfl⟩ := h; exact .inl ⟨62, BitVec.eq_of_toNat_eq hx.symm, rfl⟩
  next h => obtain ⟨hx, rfl⟩ := h; exact .inl ⟨63, BitVec.eq_of_toNat_eq hx.symm, rfl⟩
  next h => obtain ⟨hx, rfl⟩ := h; exact .inl ⟨62, BitVec.eq_of_toNat_eq hx.symm, rfl⟩
  next h => obtain ⟨hx, rfl⟩ := h; exact .inl ⟨63, BitVec.eq_of_toNat_eq hx.symm, rfl⟩
  next => exact .inr rfl

theorem revEntry_of_not_symbol {u : Bool} {x : Byte} (h : ∀ i : Sym, fwdEntry u i ≠ x) : revEntry u x = revNotFound :=
  (revEntry_cases u x).resolve_left fun ⟨i, hi, _⟩ => h i hi

theorem revNF_eq_false_iff {u : Bool} {x : Byte} : revNF (revEntry u x) = false ↔ ∃ i, fwdEntry u i = x := by
  constructor
  · intro h
    by_contra hx
    rw [revEntry_of_not_symbol (not_exists.1 hx), revNF_revNotFound] at h
    cases h
  · rintro ⟨i, rfl⟩
    rw [revEntry_fwdEntry, revNF_revFound]

/-! ### How many bytes an alphabet has -/

/-- All values of a width, in order. -/
def bitVecs (w : Nat) : List (BitVec w) := (List.range (2 ^ w)).map (BitVec.ofNat w)

@[simp] theorem mem_bitVecs {w : Nat} (v : BitVec w) : v ∈ bitVecs w :=
  List.mem_map.2 ⟨v.toNat, List.mem_range.2 v.isLt, by simp⟩

@[simp] theorem length_bitVecs (w : Nat) : (bitVecs w).length = 2 ^ w := by
  rw [bitVecs, List.length_map, List.length_range]

theorem nodup_bitVecs (w : Nat) : (bitVecs w).Nodup := by
  refine List.nodup_range.map_on fun m hm n hn h => ?_
  have hnat := congrArg BitVec.toNat h
  rwa [BitVec.toNat_ofNat, BitVec.toNat_ofNat, Nat.mod_eq_of_lt (List.mem_range.1 hm),
    Nat.mod_eq_of_lt (List.mem_range.1 hn)] at hnat

/-- The bytes found in the reverse table are the forward table's entries, which are distinct (R102). -/
theorem countP_found (u : Bool) : (bitVecs 8).countP (fun x => !revNF (revEntry u x)) = 2 ^ 6 := by
  have hperm : ((bitVecs 8).filter (fun x => !revNF (revEntry u x))).Perm ((bitVecs 6).map (fwdEntry u)) := by
    refine (List.perm_ext_iff_of_nodup ((nodup_bitVecs 8).filter _)
      ((nodup_bitVecs 6).map (fwdEntry_injective u))).2 fun x => ?_
    simp [revNF_eq_false_iff]
  rw [List.countP_eq_length_filter, hperm.length_eq, List.length_map, length_bitVecs]

/-- Every symbol byte is below 0x80 (41_alphabet_lut.md R102). -/
theorem fwdEntry_lt (u : Bool) (i : Sym) : fwdEntry u i < 0x80 := by revert u i; decide

theorem revEntry_newline (u : Bool) : revEntry u 0x0A = revNotFound := by cases u <;> rfl

theorem revEntry_pad (u : Bool) : revEntry u 0x3D = revNotFound := by cases u <;> rfl

theorem revEntry_space (u : Bool) : revEntry u 0x20 = revNotFound := by cases u <;> rfl

/-! ### The queries -/

theorem exec_lutFwd (u : Bool) (ix : Sym) (s : State) :
    exec (.lutFwd u ix) s = .next (respond ((fwdEntry u ix).setWidth 16) s) := by
  rw [exec, execLutFwd, romFwd_fwdAddr]

theorem exec_lutRev (u : Bool) (x : Byte) (s : State) :
    exec (.lutRev u x) s = .next (respond ((revEntry u x).setWidth 16) s) := by
  rw [exec, execLutRev, romRev_revAddr]

theorem revFound_setWidth (i : Sym) : (revFound i).setWidth 16 = i.setWidth 16 := by revert i; decide

theorem exec_lutRev_symbol (u : Bool) (i : Sym) (s : State) :
    exec (.lutRev u (fwdEntry u i)) s = .next (respond (i.setWidth 16) s) := by
  rw [exec_lutRev, revEntry_fwdEntry, revFound_setWidth]

/-- A byte with the not-found entry gets the response 0x0040 (41_alphabet_lut.md R105). -/
theorem exec_lutRev_not_found {u : Bool} {x : Byte} (h : revEntry u x = revNotFound) (s : State) :
    exec (.lutRev u x) s = .next (respond 0x0040 s) := by
  rw [exec_lutRev, h]
  rfl

/-- LUT_FWD never responds with a byte outside the alphabet (41_alphabet_lut.md R104). -/
theorem setWidth_fwdEntry_ne {u : Bool} {x : Byte} (h : revEntry u x = revNotFound) (ix : Sym) :
    (fwdEntry u ix).setWidth 16 ≠ x.setWidth 16 := by
  intro heq
  obtain rfl : fwdEntry u ix = x := by simpa using congrArg (BitVec.setWidth 8) heq
  rw [revEntry_fwdEntry] at h
  simpa using congrArg revNF h

/-- A byte given by its number is zero-extended to the word of that number. -/
theorem exec_lutFwd_ofNat {u : Bool} {ix : Sym} {n : Nat} (h : fwdEntry u ix = BitVec.ofNat 8 n) (hn : n < 256)
    (s : State) : exec (.lutFwd u ix) s = .next (respond (BitVec.ofNat 16 n) s) := by
  rw [exec_lutFwd, h, BitVec.setWidth_ofNat_of_le_of_lt (by decide) hn]

end Sys2Proof.Machine
end

section
/-! CERTIFICATES. The obligations of 41_alphabet_lut.md. -/

namespace Sys2Proof.Machine

/-- Settles O38: reading back an entry gives its index, and no other byte has an index. -/
theorem reverseTableInvertsForwardTable : Obligations.ReverseTableInvertsForwardTable := by
  unfold Obligations.ReverseTableInvertsForwardTable
  simp only [romFwd_fwdAddr, romRev_revAddr]
  exact ⟨revEntry_fwdEntry, fun u _ _ h => fwdEntry_injective u h, fun _ _ h => revEntry_of_not_symbol h⟩

/-- Settles O39: the recognized bytes are the 64 symbol bytes, all below 0x80. -/
theorem sixtyFourRecognizedBytesPerAlphabet : Obligations.SixtyFourRecognizedBytesPerAlphabet := by
  intro u
  simp only [romRev_revAddr]
  refine ⟨countP_found u, fun x hx => ?_, congrArg revNF (revEntry_newline u), congrArg revNF (revEntry_pad u),
    congrArg revNF (revEntry_space u)⟩
  rw [revEntry_of_not_symbol, revNF_revNotFound]
  rintro i rfl
  exact absurd (fwdEntry_lt u i) (BitVec.not_lt.2 hx)

/-- Settles O40: below index 62 the alphabets agree, and newline and `=` are in neither. -/
theorem lutFwdRespondsWithTheSymbolByte : Obligations.LutFwdRespondsWithTheSymbolByte := by
  refine ⟨fun s u ix => exec_lutFwd u ix s, fun u v ix hne => ?_,
    fun u ix => ⟨setWidth_fwdEntry_ne (revEntry_newline u) ix, setWidth_fwdEntry_ne (revEntry_pad u) ix⟩, rfl, rfl,
    fun w hop hres => ?_⟩
  · have hlast : 61 < ix.toNat := not_le.1 fun hle => hne (fwdEntry_eq_of_le u v hle)
    bv_omega
  · exact decode_eq_illegal_of_reserved hop hres (by decide)

/-- Settles O41: a symbol's entry is its index, every other byte's the one of a byte not found. -/
theorem lutRevRespondsWithTheIndexOrNotFound : Obligations.LutRevRespondsWithTheIndexOrNotFound :=
  ⟨fun s u i => exec_lutRev_symbol u i s,
    fun s u x hx => exec_lutRev_not_found (revEntry_of_not_symbol hx) s,
    fun s u => ⟨exec_lutRev_not_found (revEntry_pad u) s, exec_lutRev_not_found (revEntry_newline u) s⟩,
    fun s => ⟨exec_lutRev_symbol true 62 s, exec_lutRev_not_found rfl s, exec_lutRev_symbol false 0 s,
      exec_lutRev_symbol false 63 s, exec_lutRev_not_found rfl s⟩,
    fun w hop hres => decode_eq_illegal_of_reserved hop hres (by decide)⟩

/-- Settles O57, run by run of the table and, for the characters, by evaluating it. -/
theorem forwardTableHoldsTheStandardAlphabets : Obligations.ForwardTableHoldsTheStandardAlphabets := by
  refine ⟨fun s ix => ⟨fun h u => ?_, fun h h' u => ?_, fun h h' u => ?_, ?_, ?_⟩, ?_⟩
  · exact exec_lutFwd_ofNat (fwdEntry_upper u h) (by omega) s
  · exact exec_lutFwd_ofNat (fwdEntry_lower u h h') (by omega) s
  · exact exec_lutFwd_ofNat (fwdEntry_digit u h h') (by omega) s
  · rintro rfl
    exact ⟨exec_lutFwd false 62 s, exec_lutFwd true 62 s⟩
  · rintro rfl
    exact ⟨exec_lutFwd false 63 s, exec_lutFwd true 63 s⟩
  · decide

end Sys2Proof.Machine
end

section
/-! SUPPORT. Lines and groups of an encode stream (42_encoder.md R125 to R127): a character moves the line count by one
modulo 4, so it stays in lock step with the groups and only a group's first character can be wrapped; and the whole
output of a list of characters, counted from the start of a stream. -/

namespace Sys2Proof.Machine

/-! ### The line count modulo 4 -/

/-- A full line, of 60 = 4 × 15 characters, counts like an empty one, and 6 bits wrap at a multiple of 4. -/
theorem lineAfter_mod_four (line : BitVec 6) :
    (Reference.lineAfter false line).toNat % 4 = (line.toNat + 1) % 4 := by revert line; decide

theorem lineAfterChars_mod_four (line : BitVec 6) (chs : List Byte) :
    (lineAfterChars false line chs).toNat % 4 = (line.toNat + chs.length) % 4 := by
  induction chs generalizing line with
  | nil => rfl
  | cons ch chs ih =>
    have hnext := lineAfter_mod_four line
    rw [lineAfterChars_cons, ih, List.length_cons]
    omega

/-- A URL-safe stream counts nothing. -/
@[simp] theorem lineAfter_url (line : BitVec 6) : Reference.lineAfter true line = line := rfl

@[simp] theorem lineAfterChars_url (line : BitVec 6) (chs : List Byte) : lineAfterChars true line chs = line := by
  induction chs generalizing line with
  | nil => rfl
  | cons ch chs ih => exact ih line

/-- The characters that finish an open group are counted without a new line. -/
theorem lineAfterChars_within_group {line : BitVec 6} {chs : List Byte} (hopen : line.toNat % 4 ≠ 0)
    (hfits : line.toNat % 4 + chs.length ≤ 4) :
    lineAfterChars false line chs = line + BitVec.ofNat 6 chs.length := by
  induction chs generalizing line with
  | nil => simp
  | cons ch chs ih =>
    have hfull : line ≠ 60 := by rintro rfl; exact hopen rfl
    rw [lineAfterChars_cons, lineAfter_of_not_full hfull]
    cases chs with
    | nil => rfl
    | cons ch' chs =>
      simp only [List.length_cons] at hfits ih ⊢
      have hnext : (line + 1).toNat = line.toNat + 1 := by bv_omega
      rw [ih (by omega) (by omega)]
      bv_omega

/-! ### Every step keeps line and group aligned -/

/-- A byte moves the phase by as many characters as it writes. -/
theorem Enc.byteChars_phase (e : Enc) (b : Byte) :
    (e.phase.bits.toNat + (e.byteChars b).length) % 4 = e.phase.next.bits.toNat := by
  cases hp : e.phase <;> simp [Enc.byteChars, Enc.byteSyms, hp, EncPhase.bits, EncPhase.next]

/-- A byte writes no more characters than its group has room for. -/
theorem Enc.byteChars_fits (e : Enc) (b : Byte) : e.phase.bits.toNat + (e.byteChars b).length ≤ 4 := by
  cases hp : e.phase <;> simp [Enc.byteChars, Enc.byteSyms, hp, EncPhase.bits]

/-- In the standard alphabet ENC_FINAL fills the open group up to 4 characters. -/
theorem Enc.flushChars_phase {e : Enc} (hu : e.url = false) :
    (e.phase.bits.toNat + e.flushChars.length) % 4 = 0 := by
  cases hp : e.phase <;> simp [Enc.flushChars, Enc.flushSyms, hp, hu, EncPhase.bits, Reference.padding]

/-- Alignment speaks of the encoder alone. -/
theorem GroupAligned.of_enc_eq {s t : State} (he : t.enc = s.enc) (hs : GroupAligned s) : GroupAligned t := by
  unfold GroupAligned
  rw [he]
  exact hs

/-- Writing characters keeps line and group aligned when the phase moves with them. -/
theorem GroupAligned.of_write {s t : State} {chs : List Byte} (hs : GroupAligned s) (hurl : t.enc.url = s.enc.url)
    (hline : t.enc.line = lineAfterChars s.enc.url s.enc.line chs)
    (hphase : s.enc.url = false → (s.enc.phase.bits.toNat + chs.length) % 4 = t.enc.phase.bits.toNat) :
    GroupAligned t := by
  intro hu
  rw [hurl] at hu
  rw [hline, hu, lineAfterChars_mod_four, ← hphase hu, ← hs hu, Nat.mod_add_mod]

theorem exec_groupAligned (i : Instr) (s t : State) (hs : GroupAligned s) (h : exec i s = .next t) :
    GroupAligned t := by
  obtain he | ⟨u, -, he⟩ | ⟨b, -, -, he⟩ | ⟨-, -, he⟩ := exec_enc_cases h
  · exact hs.of_enc_eq he
  · intro _
    rw [he]
    rfl
  · rw [encodeByte_eq] at he
    refine hs.of_write (chs := s.enc.byteChars b) ?_ ?_ fun _ => ?_ <;> rw [he]
    · rfl
    · rfl
    · exact s.enc.byteChars_phase b
  · rw [flushGroup_eq] at he
    refine hs.of_write (chs := s.enc.flushChars) ?_ ?_ fun hu => ?_ <;> rw [he]
    · rfl
    · rfl
    · exact Enc.flushChars_phase hu

theorem step_groupAligned (s t : State) (hs : GroupAligned s) (h : step s = .next t) : GroupAligned t :=
  step_keeps (fun _ _ he _ hs => hs.of_enc_eq he) (fun _ => rfl) exec_groupAligned hs h

/-! ### Encoder commands outside ACTIVE -/

theorem exec_encByte_inactive {s : State} (h : s.enc.state ≠ .active) (b : Byte) :
    exec (.encByte b) s = .next (raise .seqEnc s) := if_neg h

theorem exec_encFinal_inactive {s : State} (h : s.enc.state ≠ .active) :
    exec .encFinal s = .next (raise .seqEnc s) := if_neg h

/-! ### The flush of an open group -/

theorem EncPhase.bits_toNat_ne_zero {p : EncPhase} (h : p ≠ .zero) : p.bits.toNat ≠ 0 := by
  revert h; cases p <;> decide

/-- ENC_FINAL in the middle of a group counts its characters on the group's line (42_encoder.md R125). -/
theorem lineAfterChars_flushChars {s : State} (h : GroupAligned s) (hp : s.enc.phase ≠ .zero) :
    lineAfterChars s.enc.url s.enc.line s.enc.flushChars =
      if s.enc.url then s.enc.line else s.enc.line + BitVec.ofNat 6 s.enc.flushChars.length := by
  cases hu : s.enc.url with
  | true => simp
  | false =>
    have hline := h hu
    have hmax := s.enc.flushChars_length
    have hfill := Enc.flushChars_phase hu
    have hopen := EncPhase.bits_toNat_ne_zero hp
    exact lineAfterChars_within_group (by omega) (by omega)

theorem Enc.flushChars_zero {e : Enc} (hp : e.phase = .zero) : e.flushChars = [] := by
  simp [Enc.flushChars, Enc.flushSyms, hp, EncPhase.bits, Reference.padding]

theorem Enc.flushChars_one {e : Enc} (hp : e.phase = .one) :
    e.flushChars = fwdEntry e.url (symFlush e.carry) :: if e.url then [] else [Config.pad, Config.pad] := by
  simp [Enc.flushChars, Enc.flushSyms, hp, EncPhase.bits, Reference.padding]

theorem Enc.flushChars_two {e : Enc} (hp : e.phase = .two) :
    e.flushChars = fwdEntry e.url (symFlush e.carry) :: if e.url then [] else [Config.pad] := by
  simp [Enc.flushChars, Enc.flushSyms, hp, EncPhase.bits, Reference.padding]

/-- ENC_FINAL in the middle of a group of an aligned state. -/
theorem exec_encFinal_open {s : State} (hs : s.enc.state = .active) (hp : s.enc.phase ≠ .zero) (h : GroupAligned s) :
    exec .encFinal s = .next { s with
      encO := s.encO ++ s.enc.flushChars
      enc := { s.enc with
        carry := 0, phase := .zero, state := .done
        line := if s.enc.url then s.enc.line else s.enc.line + BitVec.ofNat 6 s.enc.flushChars.length } } := by
  rw [exec_encFinal_active hs, charsOut_flushChars h, Enc.afterFinal, Enc.write, lineAfterChars_flushChars h hp]

/-! ### Where a newline can come -/

/-- A byte that the reverse table does not find is no symbol byte. -/
theorem fwdEntry_ne_of_not_found {u : Bool} {x : Byte} (h : revEntry u x = revNotFound) (i : Sym) :
    fwdEntry u i ≠ x := by
  rintro rfl
  simpa using congrArg revNF h

theorem not_mem_map_fwdEntry {u : Bool} {x : Byte} (h : revEntry u x = revNotFound) (syms : List Sym) :
    x ∉ syms.map (fwdEntry u) := by
  simp [fwdEntry_ne_of_not_found h]

theorem padding_eq_replicate (n : Nat) : Reference.padding n = List.replicate ((3 - n % 3) % 3) Config.pad := by
  have hlt : n % 3 < 3 := Nat.mod_lt _ (by decide)
  unfold Reference.padding
  interval_cases n % 3 <;> rfl

/-- Symbols and padding hold no newline. -/
theorem newline_not_mem_chars (u : Bool) (syms : List Sym) (n : Nat) :
    Config.newline ∉ syms.map (fwdEntry u) ++ if u then [] else Reference.padding n := by
  rw [List.mem_append, not_or]
  refine ⟨not_mem_map_fwdEntry (revEntry_newline u) syms, ?_⟩
  split
  · exact List.not_mem_nil
  · rw [padding_eq_replicate]
    exact fun hmem => absurd (List.eq_of_mem_replicate hmem) (by decide)

theorem newline_not_mem_byteChars (e : Enc) (b : Byte) : Config.newline ∉ e.byteChars b :=
  not_mem_map_fwdEntry (revEntry_newline e.url) _

theorem newline_not_mem_flushChars (e : Enc) : Config.newline ∉ e.flushChars := newline_not_mem_chars e.url _ _

/-- In an aligned state a byte that is not the first of its group is written without a newline. -/
theorem charsOut_byteChars {s : State} (h : GroupAligned s) (hp : s.enc.phase ≠ .zero) (b : Byte) :
    charsOut s.enc.url s.enc.line (s.enc.byteChars b) = s.enc.byteChars b := by
  cases hu : s.enc.url with
  | true => exact charsOut_url _ _
  | false =>
    have hline := h hu
    have hopen := EncPhase.bits_toNat_ne_zero hp
    have hfits := s.enc.byteChars_fits b
    exact charsOut_within_group (by omega) (by omega)

/-- The newline before a character tells that the line was full. -/
theorem charOut_of_newline_mem {u : Bool} {line : BitVec 6} {ch : Byte} (hch : ch ≠ Config.newline)
    (hmem : Config.newline ∈ Reference.charOut u line ch) :
    u = false ∧ line = 60 ∧ Reference.charOut u line ch = [Config.newline, ch] := by
  by_cases hfull : u = false ∧ line = 60
  · exact ⟨hfull.1, hfull.2, if_pos hfull⟩
  · rw [Reference.charOut, if_neg hfull, List.mem_singleton] at hmem
    exact absurd hmem.symm hch

/-- A byte is preceded by a newline only as the first of a group on a full line of a standard stream. -/
theorem newline_mem_charsOut_byteChars {s : State} (h : GroupAligned s) {b : Byte}
    (hmem : Config.newline ∈ charsOut s.enc.url s.enc.line (s.enc.byteChars b)) :
    s.enc.phase = .zero ∧ s.enc.url = false ∧ s.enc.line = 60 ∧
      ∃ c, charsOut s.enc.url s.enc.line (s.enc.byteChars b) = [Config.newline, c] ∧ c ≠ Config.newline := by
  by_cases hp : s.enc.phase = .zero
  · have hout : charsOut s.enc.url s.enc.line (s.enc.byteChars b) =
        Reference.charOut s.enc.url s.enc.line (fwdEntry s.enc.url (symAtZero b)) := by
      simp [Enc.byteChars, Enc.byteSyms, hp]
    have hne := fwdEntry_ne_of_not_found (revEntry_newline s.enc.url) (symAtZero b)
    rw [hout] at hmem ⊢
    obtain ⟨hu, hline, hchar⟩ := charOut_of_newline_mem hne hmem
    exact ⟨hp, hu, hline, _, hchar, hne⟩
  · rw [charsOut_byteChars h hp] at hmem
    exact absurd hmem (newline_not_mem_byteChars s.enc b)

/-- Every command but ENC_BYTE and ENC_FINAL in an open stream leaves `enc_o` alone. -/
theorem exec_encO_cases {i : Instr} {s t : State} (h : exec i s = .next t) :
    t.encO = s.encO ∨
    (∃ b, i = .encByte b ∧ s.enc.state = .active ∧
      t.encO = s.encO ++ charsOut s.enc.url s.enc.line (s.enc.byteChars b)) ∨
    (i = .encFinal ∧ s.enc.state = .active ∧
      t.encO = s.encO ++ charsOut s.enc.url s.enc.line s.enc.flushChars) := by
  have hencO : t.encO = (s.encPart.after i).encO := congrArg EncPart.encO (exec_parts h).1
  cases i with
  | encByte b => by_cases hs : s.enc.state = .active <;> simp [hencO, EncPart.after, State.encPart, hs]
  | encFinal => by_cases hs : s.enc.state = .active <;> simp [hencO, EncPart.after, State.encPart, hs]
  | nop | encStart _ | decStart _ | decSym _ | lutFwd _ _ | lutRev _ _ | rdStat _ => exact .inl hencO

/-! ### The characters of a stream, counted from its start -/

/-- `ENC.LINE` of a standard stream when n characters have been emitted (42_encoder.md R125). -/
def lineAt (n : Nat) : BitVec 6 := if n = 0 then 0 else BitVec.ofNat 6 ((n - 1) % 60 + 1)

theorem lineAt_toNat (n : Nat) : (lineAt n).toNat = if n = 0 then 0 else (n - 1) % 60 + 1 := by
  unfold lineAt
  split
  · rfl
  · rw [BitVec.toNat_ofNat, Nat.mod_eq_of_lt (by omega)]

/-- The line is full just before character 60 k for each k ≥ 1 (42_encoder.md R125). -/
theorem lineAt_eq_full_iff {n : Nat} : lineAt n = 60 ↔ n ≠ 0 ∧ n % 60 = 0 := by
  rw [← BitVec.toNat_inj, lineAt_toNat, show (60 : BitVec 6).toNat = 60 from rfl]
  split <;> omega

theorem lineAfter_lineAt (n : Nat) : Reference.lineAfter false (lineAt n) = lineAt (n + 1) := by
  by_cases hfull : lineAt n = 60
  · obtain ⟨-, hn⟩ := lineAt_eq_full_iff.1 hfull
    rw [hfull, lineAt, if_neg n.succ_ne_zero, Nat.add_sub_cancel, hn]
    rfl
  · have hn := mt lineAt_eq_full_iff.2 hfull
    rw [lineAfter_of_not_full hfull, ← BitVec.toNat_inj, BitVec.toNat_add, lineAt_toNat, lineAt_toNat,
      if_neg n.succ_ne_zero, show (1 : BitVec 6).toNat = 1 from rfl]
    split <;> omega

theorem charOut_lineAt (n : Nat) (ch : Byte) :
    Reference.charOut false (lineAt n) ch = if n ≠ 0 ∧ n % 60 = 0 then [Config.newline, ch] else [ch] := by
  simp only [Reference.charOut, lineAt_eq_full_iff, true_and]
  rfl

theorem lineAfterChars_start (chs : List Byte) : lineAfterChars false 0 chs = lineAt chs.length := by
  induction chs using List.reverseRecOn with
  | nil => rfl
  | append_singleton chs ch ih =>
    rw [lineAfterChars_append, ih, List.length_append]
    exact lineAfter_lineAt chs.length

/-- One more character at the end of a standard stream's output. -/
theorem charsOut_concat (chs : List Byte) (ch : Byte) :
    charsOut false 0 (chs ++ [ch]) = charsOut false 0 chs ++ Reference.charOut false (lineAt chs.length) ch := by
  rw [charsOut_append, lineAfterChars_start, charsOut_cons, charsOut_nil, List.append_nil]

/-- The line wrap of the machine is that of the closed form (42_encoder.md R126(b)). -/
theorem wrapLines_eq_charsOut (chs : List Byte) : Reference.wrapLines chs = charsOut false 0 chs := by
  induction chs using List.reverseRecOn with
  | nil => rfl
  | append_singleton chs ch ih =>
    rw [charsOut_concat, ← ih, charOut_lineAt]
    simp [Reference.wrapLines, List.zipIdx_append]

theorem length_charsOut_std (chs : List Byte) :
    (charsOut false 0 chs).length = chs.length + (chs.length - 1) / 60 := by
  induction chs using List.reverseRecOn with
  | nil => rfl
  | append_singleton chs ch ih =>
    rw [charsOut_concat, List.length_append, ih, charOut_lineAt, List.length_append, List.length_singleton]
    split <;> simp only [List.length_cons, List.length_nil] <;> omega

theorem count_newline_charsOut_std {chs : List Byte} (h : Config.newline ∉ chs) :
    (charsOut false 0 chs).count Config.newline = (chs.length - 1) / 60 := by
  induction chs using List.reverseRecOn with
  | nil => rfl
  | append_singleton chs ch ih =>
    rw [List.mem_append, not_or] at h
    obtain ⟨hchs, hch⟩ := h
    rw [charsOut_concat, List.count_append, ih hchs, charOut_lineAt, List.length_append, List.length_singleton]
    split
    · rw [List.count_cons_self, List.count_eq_zero.2 hch]
      omega
    · rw [List.count_eq_zero.2 hch]
      omega

/-- The first 60 characters stand on one line. -/
theorem charsOut_first_line {chs : List Byte} (h : chs.length ≤ 60) : charsOut false 0 chs = chs := by
  induction chs using List.reverseRecOn with
  | nil => rfl
  | append_singleton chs ch ih =>
    rw [List.length_append, List.length_singleton] at h
    rw [charsOut_concat, ih (by omega), charOut_lineAt, if_neg (by omega)]

/-- Behind the first 60 characters comes a newline, if anything (42_encoder.md R127). -/
theorem charsOut_second_line {line next : List Byte} (ch : Byte) (h : line.length = 60) :
    charsOut false 0 (line ++ ch :: next) = line ++ Config.newline :: ch :: charsOut false 1 next := by
  rw [charsOut_append, charsOut_first_line h.le, lineAfterChars_start, h]
  rfl

/-- A standard stream of more than 60 characters has its first newline behind the 60th (42_encoder.md R127). -/
theorem idxOf_newline_charsOut_std {chs : List Byte} (h : Config.newline ∉ chs) (hlen : 60 < chs.length) :
    (charsOut false 0 chs).idxOf Config.newline = 60 := by
  have htake : (chs.take 60).length = 60 := List.length_take_of_le hlen.le
  have hnl : Config.newline ∉ chs.take 60 := fun hmem => h (List.mem_of_mem_take hmem)
  rw [← List.take_append_drop 60 chs, List.drop_eq_getElem_cons hlen, charsOut_second_line _ htake,
    List.idxOf_append_of_notMem hnl, htake, List.idxOf_cons_self]

/-- The last byte of the output is its last character: no stream ends with a newline (42_encoder.md R125(c)). -/
theorem getLast?_charsOut_std (chs : List Byte) : (charsOut false 0 chs).getLast? = chs.getLast? := by
  obtain rfl | ⟨chs, ch, rfl⟩ := List.eq_nil_or_concat chs
  · rfl
  · rw [List.concat_eq_append, charsOut_concat, charOut_lineAt]
    split <;> simp

/-- Counting bytes other than the newline, the line wrap does not matter. -/
theorem countP_charsOut {p : Byte → Bool} (hp : p Config.newline = false) (u : Bool) (line : BitVec 6)
    (chs : List Byte) : (charsOut u line chs).countP p = chs.countP p := by
  induction chs generalizing line with
  | nil => rfl
  | cons ch chs ih =>
    have hch : (Reference.charOut u line ch).countP p = [ch].countP p := by
      unfold Reference.charOut
      split
      · exact List.countP_cons_of_neg (by rw [show p 10 = false from hp]; decide)
      · rfl
    rw [charsOut_cons, List.countP_append, hch, ih, ← List.countP_append, List.singleton_append]

/-! ### The characters of an encode stream -/

/-- The stream's output in closed form is its characters through the line wrap. -/
theorem encoded_eq_charsOut (u : Bool) (bytes : List Byte) :
    Reference.encoded u bytes = charsOut u 0 (streamChars u bytes) := by
  cases u with
  | false => exact wrapLines_eq_charsOut _
  | true => simp [Reference.encoded, streamChars]

theorem newline_not_mem_streamChars (u : Bool) (bytes : List Byte) : Config.newline ∉ streamChars u bytes :=
  newline_not_mem_chars u _ _

/-- A standard stream has four characters for each group, the padding included (42_encoder.md R126(b)). -/
theorem length_streamChars_std (bytes : List Byte) :
    (streamChars false bytes).length = 4 * ((bytes.length + 2) / 3) := by
  simp only [streamChars, padding_eq_replicate, Bool.false_eq_true, if_false, List.length_append, List.length_map,
    List.length_replicate, Reference.symbols_length]
  omega

/-- Only the padding of a standard stream is padding bytes. -/
theorem count_pad_streamChars_std (bytes : List Byte) :
    (streamChars false bytes).count Config.pad = (3 - bytes.length % 3) % 3 := by
  have hsyms := List.count_eq_zero.2 (not_mem_map_fwdEntry (revEntry_pad false) (Reference.symbols bytes))
  simp only [streamChars, padding_eq_replicate, Bool.false_eq_true, if_false, List.count_append,
    List.count_replicate_self]
  exact (congrArg (· + _) hsyms).trans (Nat.zero_add _)

end Sys2Proof.Machine
end

section
/-! SUPPORT. Presented commands always run to their end, which leaves what was presented behind them. -/

namespace Sys2Proof.Machine

theorem exec_answers (i : Instr) (s : State) : ∃ t, exec i s = .next t := by
  cases i with
  | nop | encStart _ | decStart _ | lutFwd _ _ | lutRev _ _ | rdStat _ => exact ⟨_, rfl⟩
  | encByte _ | encFinal | decSym _ =>
    simp only [exec, execEncByte, execEncFinal, execDecSym]
    split <;> exact ⟨_, rfl⟩

theorem steps_presents_answers {is : List Instr} {rest : List HostEvent} {s : State} (hin : presents s is rest) :
    ∃ t, steps is.length s = .next t ∧ t.hostIn = rest := by
  induction is generalizing s with
  | nil => exact ⟨s, rfl, hin⟩
  | cons i is ih =>
    have hstep : step s = exec i (s.setHostIn (presented is ++ rest)) := step_of_command hin (decode_encode i)
    obtain ⟨r, hr⟩ := exec_answers i (s.setHostIn (presented is ++ rest))
    obtain ⟨t, ht, hrest⟩ := ih (s := r) (exec_hostIn hr)
    exact ⟨t, by simpa only [List.length_cons, steps, hstep, hr] using ht, hrest⟩

end Sys2Proof.Machine
end

section
/-! CERTIFICATES. The obligations of 42_encoder.md. -/

namespace Sys2Proof.Machine

/-- Settles O28: the line count modulo 4 and the phase both move by the number of characters written. -/
theorem everyStepKeepsLineAndGroupAligned : Obligations.EveryStepKeepsLineAndGroupAligned :=
  step_groupAligned

/-- Settles O42: ENC_START writes every register of the encoder, so the state before does not matter. -/
theorem encStartOpensAStream : Obligations.EncStartOpensAStream := by
  refine ⟨fun _ _ => rfl, fun s t h => ?_, fun w hop hres => decode_eq_illegal_of_reserved hop hres (by decide)⟩
  cases h
  exact ⟨by simp [encStatus, EncState.bits, EncPhase.bits], rfl⟩

/-- Settles O43: the characters of a byte through the line wrap, phase by phase. -/
theorem encByteConsumesOneByte : Obligations.EncByteConsumesOneByte := by
  refine ⟨fun s b hs hp => ?_, fun s b hs hp => ?_, fun s b hs hp => ?_, fun s b hs => exec_encByte_inactive hs b,
    fun w hop hres => decode_eq_illegal_of_reserved hop hres (by decide)⟩ <;>
  · rw [exec_encByte_active hs]
    simp [Enc.afterByte, Enc.write, Enc.byteChars, Enc.byteSyms, Enc.byteCarry, EncPhase.next, hp, symAtZero, symAtOne,
      symAtTwo, symLast, carryAtZero, carryAtOne]

/-- Settles O45: the characters of the flush through the line wrap, by phase and alphabet. -/
theorem encFinalEmitsThroughTheLineWrap : Obligations.EncFinalEmitsThroughTheLineWrap := by
  intro s hs
  rw [exec_encFinal_active hs]
  cases hp : s.enc.phase with
  | zero => simp [Enc.afterFinal, Enc.write, Enc.flushChars_zero hp]
  | one => cases hu : s.enc.url <;> simp [Enc.afterFinal, Enc.write, Enc.flushChars_one hp, hu, symFlush, Config.pad]
  | two => cases hu : s.enc.url <;> simp [Enc.afterFinal, Enc.write, Enc.flushChars_two hp, hu, symFlush, Config.pad]

/-- Settles O44: in an aligned state the flush stays on its line. -/
theorem encFinalFlushesPadsAndEnds : Obligations.EncFinalFlushesPadsAndEnds := by
  refine ⟨fun s hs hp => ?_, fun s hs hp _ hal => ?_, fun s hs hp _ hal => ?_, fun s hs => exec_encFinal_inactive hs,
    fun w hop hres => decode_eq_illegal_of_reserved hop hres (by decide)⟩
  · simp [exec_encFinal_active hs, Enc.afterFinal, Enc.write, Enc.flushChars_zero hp]
  · rw [exec_encFinal_open hs (by simp [hp]) hal, Enc.flushChars_one hp]
    cases s.enc.url <;> simp [symFlush, Config.pad]
  · rw [exec_encFinal_open hs (by simp [hp]) hal, Enc.flushChars_two hp]
    cases s.enc.url <;> simp [symFlush, Config.pad]

/-- Settles O46: the characters themselves are no newlines, and of those a command writes only a group's first can
stand at a full line. -/
theorem newlineOnlyBeforeAGroupOnAFullLine : Obligations.NewlineOnlyBeforeAGroupOnAFullLine := by
  intro s t i _ hal h
  obtain he | ⟨b, rfl, hs, he⟩ | ⟨-, -, he⟩ := exec_encO_cases h
  · exact ⟨[], by rw [he, List.append_nil], fun hmem => absurd hmem List.not_mem_nil⟩
  · refine ⟨_, he, fun hmem => ?_⟩
    obtain ⟨hp, hu, hline, hout⟩ := newline_mem_charsOut_byteChars hal hmem
    exact ⟨⟨b, rfl⟩, hs, hp, hu, hline, hout⟩
  · rw [charsOut_flushChars hal] at he
    exact ⟨_, he, fun hmem => absurd hmem (newline_not_mem_flushChars s.enc)⟩

/-- Settles O47: the stream's characters through the line wrap are the closed form, which has four characters for each
group and a newline for every 60 before the last. -/
theorem encodeStreamHasTheClosedForm : Obligations.EncodeStreamHasTheClosedForm := by
  intro u bytes s rest n groups hin
  obtain ⟨t, h, hrest⟩ := steps_presents_answers hin
  have hpart := encodeStream_encPart hin h
  refine ⟨t, h, ?_, congrArg (fun p => p.enc.state) hpart, hrest, ?_, ?_⟩
  · rw [encoded_eq_charsOut]
    exact congrArg EncPart.encO hpart
  · rintro rfl
    refine ⟨?_, not_mem_map_fwdEntry (revEntry_newline true) _, not_mem_map_fwdEntry (revEntry_pad true) _⟩
    rw [Reference.encoded, if_pos rfl, List.length_map, Reference.symbols_length]
    omega
  · rintro rfl
    have hchars : (streamChars false bytes).length = 4 * groups := length_streamChars_std bytes
    rw [encoded_eq_charsOut, length_charsOut_std, count_newline_charsOut_std (newline_not_mem_streamChars _ _), hchars]
    omega

/-- Settles O49: the line wrap neither adds a padding byte nor comes last, and 46 bytes are 64 characters. -/
theorem paddingAndLineWrapOfStandardStreams : Obligations.PaddingAndLineWrapOfStandardStreams := by
  intro bytes s t rest hin h
  have hnl := newline_not_mem_streamChars false bytes
  have hlen := length_streamChars_std bytes
  have hpad : (charsOut false 0 (streamChars false bytes)).count Config.pad = (3 - bytes.length % 3) % 3 :=
    (countP_charsOut rfl _ _ _).trans (count_pad_streamChars_std bytes)
  refine ⟨charsOut false 0 (streamChars false bytes), congrArg EncPart.encO (encodeStream_encPart hin h),
    fun h0 => by rw [hpad, h0], fun h1 => by rw [hpad, h1], fun h2 => by rw [hpad, h2], ?_, fun h46 => ?_⟩
  · rw [getLast?_charsOut_std]
    exact fun hlast => hnl (List.mem_of_getLast? hlast)
  · rw [h46] at hlen
    rw [length_charsOut_std, count_newline_charsOut_std hnl, hlen]
    exact ⟨rfl, idxOf_newline_charsOut_std hnl (by rw [hlen]; decide), rfl⟩

end Sys2Proof.Machine
end

section
/-! SUPPORT. The bit string of 20_memory.md R52 read back: where each bit of a value stands, and that the values can be
told from it. -/

namespace Sys2Proof.Reference

@[simp] theorem bitString_length {w : Nat} (vs : List (BitVec w)) : (bitString vs).length = w * vs.length := by
  induction vs with
  | nil => rfl
  | cons v vs ih =>
    rw [bitString_cons, List.length_append, bits_length, ih, List.length_cons, Nat.mul_succ, Nat.add_comm]

@[simp] theorem bitString_append {w : Nat} (vs ws : List (BitVec w)) :
    bitString (vs ++ ws) = bitString vs ++ bitString ws := List.flatMap_append

@[simp] theorem bitString_singleton {w : Nat} (v : BitVec w) : bitString [v] = bits v := List.append_nil _

/-- Bit j of value k stands at position w k + j. -/
theorem bitString_getElem? {w : Nat} (vs : List (BitVec w)) {k j : Nat} (hk : k < vs.length) (hj : j < w) :
    (bitString vs)[w * k + j]? = some ((vs.getD k 0).getMsbD j) := by
  have hlt : w * k + j < (bitString vs).length := by
    rw [bitString_length]
    calc w * k + j < w * k + w := by omega
      _ = w * (k + 1) := rfl
      _ ≤ w * vs.length := Nat.mul_le_mul_left w hk
  rw [← bitString_getD vs hk hj, List.getD_eq_getElem _ _ hlt, List.getElem?_eq_getElem hlt]

theorem bits_injective {w : Nat} : Function.Injective (bits (w := w)) := by
  intro x y h
  refine BitVec.eq_of_getMsbD_eq fun j hj => ?_
  rw [← bits_getD x hj, h, bits_getD y hj]

/-- The bit string of values of a positive width tells the values. -/
theorem bitString_injective {w : Nat} (hw : 0 < w) : Function.Injective (bitString (w := w)) := by
  intro vs
  induction vs with
  | nil =>
    intro ws h
    have hlen := congrArg List.length h
    rw [bitString_length, bitString_length] at hlen
    exact (List.length_eq_zero_iff.1 (Nat.eq_of_mul_eq_mul_left hw hlen).symm).symm
  | cons v vs ih =>
    intro ws h
    cases ws with
    | nil => simpa [hw.ne'] using congrArg List.length h
    | cons v' ws =>
      obtain ⟨hv, hvs⟩ := List.append_inj h (by rw [bits_length, bits_length])
      rw [bits_injective hv, ih hvs]

/-- A value whose low n bits are 0 is its other bits and then n zeros. -/
theorem bits_of_low_zeros {w n : Nat} (hn : n ≤ w) {v : BitVec w} (h : v &&& BitVec.ofNat w (2 ^ n - 1) = 0) :
    bits v = (bits v).take (w - n) ++ List.replicate n false := by
  have hlow (i : Nat) (hi : i < n) : v.getLsbD i = false := by
    have hmask : (BitVec.ofNat w (2 ^ n - 1)).getLsbD i = true := by
      rw [BitVec.getLsbD_ofNat, Nat.testBit_two_pow_sub_one]
      simp [hi, hi.trans_le hn]
    have hbit : (v &&& BitVec.ofNat w (2 ^ n - 1)).getLsbD i = false := by rw [h]; exact BitVec.getLsbD_zero
    rwa [BitVec.getLsbD_and, hmask, Bool.and_true] at hbit
  apply List.ext_getElem
  · simp only [bits_length, List.length_append, List.length_take, List.length_replicate]
    omega
  · intro j hj _
    rw [bits_length] at hj
    by_cases hhigh : j < w - n
    · simp [hhigh]
    · simp [List.getElem_append, hhigh, bits, BitVec.getMsbD, hj, hlow (w - 1 - j) (by omega)]

theorem bits_or {w : Nat} (x y : BitVec w) : bits (x ||| y) = List.zipWith (· || ·) (bits x) (bits y) := by
  apply List.ext_getElem
  · simp
  · intro j _ _
    simp [bits]

end Sys2Proof.Reference
end

section
/-! SUPPORT. A decode stream alone (43_decoder.md R153): the decoder works on the recognized symbols only, and the bytes
it has emitted, followed by the bits it still holds in `DEC.CARRY`, are at any time the bits of the symbols it has
taken. -/

namespace Sys2Proof.Machine

/-! ### One symbol, in bits -/

theorem DecPhase.toNat_le (p : DecPhase) : p.toNat ≤ 6 := by cases p <;> decide

theorem DecPhase.sub_mod_eight {p : DecPhase} (hp : p ≠ .zero) : (8 - p.toNat) % 8 = 8 - p.toNat := by
  revert hp; cases p <;> decide

theorem zipWith_or_zeros {bs : List Bool} {n : Nat} (h : bs.length = n) :
    List.zipWith (· || ·) bs (List.replicate n false) = bs := by
  subst h
  apply List.ext_getElem <;> simp

theorem zipWith_zeros_or {bs : List Bool} {n : Nat} (h : bs.length = n) :
    List.zipWith (· || ·) (List.replicate n false) bs = bs := by
  subst h
  apply List.ext_getElem <;> simp

/-- The bits that `DEC.CARRY` holds for the next byte: its top (8 - p) mod 8 (10_state.md R31). -/
def Dec.pending (d : Dec) : List Bool := (Reference.bits d.carry).take ((8 - d.phase.toNat) % 8)

theorem Dec.pending_zero {d : Dec} (hp : d.phase = .zero) : d.pending = [] := by rw [Dec.pending, hp]; rfl

theorem Dec.pending_length (d : Dec) : d.pending.length = (8 - d.phase.toNat) % 8 := by
  rw [Dec.pending, List.length_take, Reference.bits_length]
  omega

/-- A legal carry is its pending bits and then zeros (10_state.md R31). -/
theorem Dec.bits_carry {d : Dec} (h : decCarryLegal d) (hp : d.phase ≠ .zero) :
    Reference.bits d.carry = d.pending ++ List.replicate d.phase.toNat false := by
  obtain ⟨st, u, p, ca⟩ := d
  unfold decCarryLegal at h
  cases p with
  | zero => exact absurd rfl hp
  | two => exact Reference.bits_of_low_zeros (n := 2) (by decide) h
  | four => exact Reference.bits_of_low_zeros (n := 4) (by decide) h
  | six => exact Reference.bits_of_low_zeros (n := 6) (by decide) h

/-- The top p bits of a symbol come to stand behind the 8 - p bits that the carry holds. -/
theorem bits_symbol_top (p : DecPhase) (c : Sym) :
    Reference.bits ((c >>> (6 - p.toNat)).setWidth 8) =
      List.replicate (8 - p.toNat) false ++ (Reference.bits c).take p.toNat := by
  cases p <;> revert c <;> decide

/-- The carry's low bits and the symbol's place above its own bits are zeros, so the two meet without overlap
(43_decoder.md R151). -/
theorem Dec.bits_decByte {d : Dec} (h : decCarryLegal d) (hp : d.phase ≠ .zero) (c : Sym) :
    Reference.bits (decByte d.carry d.phase c) = d.pending ++ (Reference.bits c).take d.phase.toNat := by
  have hpend : d.pending.length = 8 - d.phase.toNat := d.pending_length.trans (DecPhase.sub_mod_eight hp)
  have htop : ((Reference.bits c).take d.phase.toNat).length = d.phase.toNat := by
    rw [List.length_take, Reference.bits_length, Nat.min_eq_left d.phase.toNat_le]
  rw [decByte, Reference.bits_or, Dec.bits_carry h hp, bits_symbol_top,
    List.zipWith_append (by rw [hpend, List.length_replicate]), zipWith_or_zeros hpend, zipWith_zeros_or htop]

/-- The rest of the symbol's bits are pending in the new carry (43_decoder.md R151). -/
theorem Dec.pending_afterSym (d : Dec) (c : Sym) :
    (d.afterSym c).pending = (Reference.bits c).drop d.phase.toNat := by
  show (Reference.bits (decCarry d.phase.next c)).take ((8 - d.phase.next.toNat) % 8) = _
  generalize d.phase = p
  cases p <;> revert c <;> decide

/-- A symbol's bits go behind the pending ones, and what makes a whole byte is emitted. -/
theorem Dec.bitString_symOut {d : Dec} (h : decCarryLegal d) (c : Sym) :
    Reference.bitString (d.symOut c) ++ (d.afterSym c).pending = d.pending ++ Reference.bits c := by
  rw [d.pending_afterSym]
  by_cases hp : d.phase = .zero
  · rw [Dec.symOut, if_pos hp, Dec.pending_zero hp, hp]
    rfl
  · rw [Dec.symOut, if_neg hp, Reference.bitString_singleton, Dec.bits_decByte h hp, List.append_assoc,
      List.take_append_drop]

/-! ### A list of symbols -/

/-- The decoder after a list of recognized symbols. -/
def Dec.afterSyms (d : Dec) (cs : List Sym) : Dec := cs.foldl Dec.afterSym d

/-- What a list of recognized symbols adds to `dec_o`. -/
def Dec.symsOut : Dec → List Sym → List Byte
  | _, [] => []
  | d, c :: cs => d.symOut c ++ (d.afterSym c).symsOut cs

section
variable (d : Dec) (c : Sym) (cs : List Sym)

@[simp] theorem Dec.afterSyms_nil : d.afterSyms [] = d := rfl

@[simp] theorem Dec.afterSyms_cons : d.afterSyms (c :: cs) = (d.afterSym c).afterSyms cs := rfl

@[simp] theorem Dec.symsOut_nil : d.symsOut [] = [] := rfl

@[simp] theorem Dec.symsOut_cons : d.symsOut (c :: cs) = d.symOut c ++ (d.afterSym c).symsOut cs := rfl

end

/-- Bytes emitted and bits pending are the bits taken, in order (43_decoder.md R153). -/
theorem Dec.bitString_symsOut {d : Dec} (h : decCarryLegal d) (cs : List Sym) :
    Reference.bitString (d.symsOut cs) ++ (d.afterSyms cs).pending = d.pending ++ Reference.bitString cs := by
  induction cs generalizing d with
  | nil => simp
  | cons c cs ih =>
    have hnext : decCarryLegal (d.afterSym c) := decCarry_legal d d.phase.next c
    rw [Dec.symsOut_cons, Dec.afterSyms_cons, Reference.bitString_append, List.append_assoc, ih hnext,
      ← List.append_assoc, Dec.bitString_symOut h, List.append_assoc, Reference.bitString_cons]

/-! ### A stream from its start -/

/-- The decoder that DEC_START leaves (43_decoder.md R150). -/
def Dec.opened (u : Bool) : Dec := { Dec.reset with state := .active, url := u }

section
variable (u : Bool) (cs : List Sym)

theorem bitString_decoded :
    Reference.bitString ((Dec.opened u).symsOut cs) ++ ((Dec.opened u).afterSyms cs).pending =
      Reference.bitString cs := by
  have hbits := Dec.bitString_symsOut (d := Dec.opened u) rfl cs
  rwa [Dec.pending_zero (d := Dec.opened u) rfl, List.nil_append] at hbits

/-- The bits taken, counted: eight for each byte emitted and those that are pending. -/
theorem decoded_count :
    8 * ((Dec.opened u).symsOut cs).length + (8 - ((Dec.opened u).afterSyms cs).phase.toNat) % 8 = 6 * cs.length := by
  have hlen := congrArg List.length (bitString_decoded u cs)
  rwa [List.length_append, Reference.bitString_length, Reference.bitString_length, Dec.pending_length] at hlen

theorem decoded_length : ((Dec.opened u).symsOut cs).length = 3 * cs.length / 4 := by
  have hcount := decoded_count u cs
  omega

theorem decoded_phase : ((Dec.opened u).afterSyms cs).phase.toNat = 2 * cs.length % 8 := by
  have hcount := decoded_count u cs
  have hp := ((Dec.opened u).afterSyms cs).phase.toNat_le
  omega

/-- The bytes emitted are the first bytes of the symbols' bits. -/
theorem decoded_getMsbD {k j : Nat} (hk : k < ((Dec.opened u).symsOut cs).length) (hj : j < 8) :
    some ((((Dec.opened u).symsOut cs).getD k 0).getMsbD j) = (Reference.bitString cs)[8 * k + j]? := by
  rw [← bitString_decoded u cs, List.getElem?_append_left (by rw [Reference.bitString_length]; omega),
    Reference.bitString_getElem? _ hk hj]

/-- The symbols of a byte sequence give the bytes back: the fill bits make no whole byte (43_decoder.md R155). -/
theorem decoded_symbols (bytes : List Byte) : (Dec.opened u).symsOut (Reference.symbols bytes) = bytes := by
  have hlen := decoded_length u (Reference.symbols bytes)
  rw [Reference.symbols_length] at hlen
  obtain ⟨n, hfill⟩ := Reference.bitString_symbols bytes
  have hbits := (bitString_decoded u (Reference.symbols bytes)).trans hfill
  refine Reference.bitString_injective (by decide) (List.append_inj_left hbits ?_)
  rw [Reference.bitString_length, Reference.bitString_length]
  omega

end

/-! ### The stream's bytes -/

/-- A byte of the alphabet adds its symbol, and noise adds none (43_decoder.md R153). -/
theorem recognizedSymbols_cons (u : Bool) (x : Byte) (bytes : List Byte) :
    Reference.recognizedSymbols u (x :: bytes) =
      if Reference.recognized u x then revIDX (revEntry u x) :: Reference.recognizedSymbols u bytes
      else Reference.recognizedSymbols u bytes := by
  unfold Reference.recognizedSymbols
  split
  · next h => rw [List.filter_cons_of_pos h, List.map_cons]
  · next h => rw [List.filter_cons_of_neg h]

/-- In an open stream a list of input bytes does what its recognized symbols do. -/
theorem DecPart.foldl_bytes {p : DecPart} (h : p.dec.state = .active) (bytes : List Byte) :
    (bytes.map Instr.decSym).foldl DecPart.after p =
      { p with
        dec := p.dec.afterSyms (Reference.recognizedSymbols p.dec.url bytes)
        decO := p.decO ++ p.dec.symsOut (Reference.recognizedSymbols p.dec.url bytes) } := by
  induction bytes generalizing p with
  | nil => simp [Reference.recognizedSymbols]
  | cons x bytes ih =>
    rw [List.map_cons, List.foldl_cons, DecPart.after, if_pos h, recognizedSymbols_cons]
    cases hx : Reference.recognized p.dec.url x with
    | true =>
      rw [ih (by simpa [Dec.afterByte, hx, Dec.afterSym] using h)]
      simp [Dec.afterByte, Dec.byteOut, hx, Dec.afterSym]
    | false =>
      rw [ih (by simpa [Dec.afterByte, hx] using h)]
      simp [Dec.afterByte, Dec.byteOut, hx]

/-- What a decode stream makes of the decoder and appends to `dec_o` depends on its recognized symbols alone. -/
theorem decodeStream_decPart {u : Bool} {bytes : List Byte} {rest : List HostEvent} {s t : State}
    (hin : presents s (decodeStream u bytes) rest) (h : steps (decodeStream u bytes).length s = .next t) :
    t.dec = (Dec.opened u).afterSyms (Reference.recognizedSymbols u bytes) ∧
      t.decO = s.decO ++ (Dec.opened u).symsOut (Reference.recognizedSymbols u bytes) := by
  have hpart := steps_presents_decPart hin h
  rw [decodeStream, List.foldl_cons, DecPart.foldl_bytes rfl] at hpart
  exact ⟨congrArg DecPart.dec hpart, congrArg DecPart.decO hpart⟩

/-- A presented decode stream always runs to its end. -/
theorem decodeStream_answers {u : Bool} {bytes : List Byte} {rest : List HostEvent} {s : State}
    (hin : presents s (decodeStream u bytes) rest) :
    ∃ t, steps (decodeStream u bytes).length s = .next t ∧
      t.dec = (Dec.opened u).afterSyms (Reference.recognizedSymbols u bytes) ∧
      t.decO = s.decO ++ (Dec.opened u).symsOut (Reference.recognizedSymbols u bytes) ∧ t.hostIn = rest := by
  obtain ⟨t, h, hrest⟩ := steps_presents_answers hin
  obtain ⟨hdec, hdecO⟩ := decodeStream_decPart hin h
  exact ⟨t, h, hdec, hdecO, hrest⟩

/-! ### The output of an encode stream as the input of a decode stream -/

/-- Any selection of bytes that leaves out the newline does not see the line wrap. -/
theorem filter_charsOut {p : Byte → Bool} (hp : p Config.newline = false) (u : Bool) (line : BitVec 6)
    (chs : List Byte) : (charsOut u line chs).filter p = chs.filter p := by
  induction chs generalizing line with
  | nil => rfl
  | cons ch chs ih =>
    have hch : (Reference.charOut u line ch).filter p = [ch].filter p := by
      unfold Reference.charOut
      split
      · exact List.filter_cons_of_neg (by rw [show p 10 = false from hp]; decide)
      · rfl
    rw [charsOut_cons, List.filter_append, hch, ih, ← List.filter_append, List.singleton_append]

theorem not_recognized_of_not_found {u : Bool} {x : Byte} (h : revEntry u x = revNotFound) :
    Reference.recognized u x = false := by
  rw [Reference.recognized, h, revNF_revNotFound]
  rfl

/-- Neither alphabet has a padding byte. -/
theorem filter_recognized_padding_any (v : Bool) (n : Nat) :
    (Reference.padding n).filter (Reference.recognized v) = [] := by
  have hpad : Reference.recognized v Config.pad = false := not_recognized_of_not_found (revEntry_pad v)
  rw [padding_eq_replicate, List.filter_replicate, hpad]
  rfl

/-- A symbol byte of one alphabet that the other has too stands there for the same symbol (41_alphabet_lut.md R100). -/
theorem revIDX_of_recognized {u v : Bool} {i : Sym} (h : Reference.recognized v (fwdEntry u i) = true) :
    revIDX (revEntry v (fwdEntry u i)) = i := by
  revert u v i; decide

/-- The symbols that a decoder in alphabet v finds in an encode stream's output in alphabet u. -/
theorem recognizedSymbols_encoded (u v : Bool) (bytes : List Byte) :
    Reference.recognizedSymbols v (charsOut u 0 (streamChars u bytes)) =
      (Reference.symbols bytes).filter (fun i => Reference.recognized v (fwdEntry u i)) := by
  have hpad : (if u then [] else Reference.padding bytes.length).filter (Reference.recognized v) = [] := by
    split
    · rfl
    · exact filter_recognized_padding_any v _
  rw [Reference.recognizedSymbols, filter_charsOut (not_recognized_of_not_found (revEntry_newline v)), streamChars,
    List.filter_append, hpad, List.append_nil, List.filter_map, List.map_map]
  exact (List.map_congr_left fun i hi => revIDX_of_recognized (List.mem_filter.1 hi).2).trans (List.map_id _)

theorem recognizedSymbols_encoded_same (u : Bool) (bytes : List Byte) :
    Reference.recognizedSymbols u (charsOut u 0 (streamChars u bytes)) = Reference.symbols bytes := by
  rw [recognizedSymbols_encoded, List.filter_eq_self]
  exact fun i _ => recognized_fwdEntry u i

/-- The alphabets differ in the bytes of 62 and 63 (41_alphabet_lut.md R100). -/
theorem recognized_fwdEntry_other (u : Bool) (i : Sym) :
    Reference.recognized (!u) (fwdEntry u i) = decide (i ≠ 62 ∧ i ≠ 63) := by
  revert u i; decide

theorem recognizedSymbols_encoded_other (u : Bool) (bytes : List Byte) :
    Reference.recognizedSymbols (!u) (charsOut u 0 (streamChars u bytes)) =
      (Reference.symbols bytes).filter (fun c => c ≠ 62 ∧ c ≠ 63) := by
  rw [recognizedSymbols_encoded]
  exact List.filter_congr fun i _ => recognized_fwdEntry_other u i

/-- A symbol lost costs a byte, since no encoding has symbols to spare. -/
theorem length_filter_symbols_lt {p : Sym → Bool} {bytes : List Byte} {c : Sym} (hc : c ∈ Reference.symbols bytes)
    (hp : p c = false) : 3 * ((Reference.symbols bytes).filter p).length / 4 < bytes.length := by
  have hlost : ((Reference.symbols bytes).filter p).length < (Reference.symbols bytes).length :=
    List.length_filter_lt_length_iff_exists.2 ⟨c, hc, by simp [hp]⟩
  rw [Reference.symbols_length] at hlost
  omega

end Sys2Proof.Machine
end

section
/-! SUPPORT. The decoder's commands one at a time (43_decoder.md R150 to R152). -/

namespace Sys2Proof.Machine

theorem exec_decSym_inactive {s : State} (h : s.dec.state ≠ .active) (x : Byte) :
    exec (.decSym x) s = .next (raise .seqDec s) := if_neg h

/-- A byte outside the alphabet leaves everything as it is. -/
theorem exec_decSym_noise {s : State} (h : s.dec.state = .active) {x : Byte}
    (hx : Reference.recognized s.dec.url x = false) : exec (.decSym x) s = .next s := by
  rw [exec_decSym_active h]
  simp [Dec.afterByte, Dec.byteOut, hx]

/-- A byte of the alphabet is taken as its symbol. -/
theorem exec_decSym_symbol {s : State} (h : s.dec.state = .active) (c : Sym) :
    exec (.decSym (fwdEntry s.dec.url c)) s =
      .next { s with dec := s.dec.afterSym c, decO := s.decO ++ s.dec.symOut c } := by
  rw [exec_decSym_active h]
  simp [Dec.afterByte, Dec.byteOut, recognized_fwdEntry]

theorem DecPhase.toNat_eq_zero_iff {p : DecPhase} : p.toNat = 0 ↔ p = .zero := by cases p <;> decide

theorem DecPhase.next_toNat (p : DecPhase) : p.next.toNat = (p.toNat + 2) % 8 := by cases p <;> rfl

theorem setWidth_shiftRight_sym (c : Sym) (n : Nat) : (c >>> n).setWidth 8 = BitVec.ofNat 8 (c.toNat >>> n) := by
  rw [← BitVec.toNat_ushiftRight, BitVec.ofNat_toNat]

theorem setWidth_shiftLeft_sym (c : Sym) (n : Nat) : c.setWidth 8 <<< n = BitVec.ofNat 8 (c.toNat <<< n % 256) := by
  have hc : c.toNat % 256 = c.toNat := Nat.mod_eq_of_lt (by omega)
  exact BitVec.eq_of_toNat_eq (by simp [hc])

/-- The byte that a symbol completes, in numbers (43_decoder.md R151). -/
theorem Dec.symOut_eq (d : Dec) (c : Sym) :
    d.symOut c = if d.phase.toNat = 0 then []
      else [d.carry ||| BitVec.ofNat 8 (c.toNat >>> (6 - d.phase.toNat))] := by
  simp only [Dec.symOut, decByte, setWidth_shiftRight_sym, DecPhase.toNat_eq_zero_iff]

/-- The carry that a symbol leaves, in numbers (43_decoder.md R151). -/
theorem decCarry_eq (p : DecPhase) (c : Sym) :
    decCarry p c = if p.toNat = 0 then 0x00 else BitVec.ofNat 8 (c.toNat <<< p.toNat % 256) := by
  simp only [decCarry, setWidth_shiftLeft_sym, DecPhase.toNat_eq_zero_iff]

/-- Only DEC_SYM in an open stream reaches `dec_o`. -/
theorem exec_decO_cases {i : Instr} {s t : State} (h : exec i s = .next t) :
    t.decO = s.decO ∨ ∃ x, i = .decSym x ∧ s.dec.state = .active ∧ t.decO = s.decO ++ s.dec.byteOut x := by
  have hdecO : t.decO = (s.decPart.after i).decO := congrArg DecPart.decO (exec_parts h).2
  cases i with
  | decSym x => by_cases hs : s.dec.state = .active <;> simp [hdecO, DecPart.after, State.decPart, hs]
  | nop | encStart _ | encByte _ | encFinal | decStart _ | lutFwd _ _ | lutRev _ _ | rdStat _ => exact .inl hdecO

/-- A byte comes out only for a recognized symbol off phase 0. -/
theorem Dec.byteOut_ne_nil {d : Dec} {x : Byte} (h : d.byteOut x ≠ []) :
    d.phase ≠ .zero ∧ Reference.recognized d.url x = true := by
  unfold Dec.byteOut Dec.symOut at h
  split at h
  · next hx => exact ⟨fun hp => h (if_pos hp), hx⟩
  · exact absurd rfl h

end Sys2Proof.Machine
end

section
/-! CERTIFICATES. The obligations of 43_decoder.md. -/

namespace Sys2Proof.Machine

/-- Settles O50: DEC_START writes every register of the decoder, so the state before does not matter. -/
theorem decStartOpensAStream : Obligations.DecStartOpensAStream := by
  refine ⟨fun _ _ => rfl, fun s t h => ?_, fun w hop hres => decode_eq_illegal_of_reserved hop hres (by decide)⟩
  cases h
  simp [decStatus, DecState.bits, DecPhase.bits, DecPhase.toNat]

/-- Settles O34: of all that a step can do, only an input byte in an open stream touches `dec_o`. -/
theorem onlyCompletingSymbolsReachTheDecoderOutput : Obligations.OnlyCompletingSymbolsReachTheDecoderOutput := by
  intro s t h hne
  obtain ⟨-, rfl⟩ | ⟨_, -, rfl⟩ | ⟨w, rest, i, hin, hd, hx⟩ | ⟨_, _, -, -, rfl⟩ := step_cases h
  · exact absurd rfl hne
  · exact absurd rfl hne
  · obtain hsame | ⟨x, rfl, hs, hout⟩ := exec_decO_cases hx
    · exact absurd hsame hne
    · have hbyte : s.dec.byteOut x ≠ [] := fun hnil => hne (by rw [hout]; simp [hnil])
      obtain ⟨hp, hrec⟩ := Dec.byteOut_ne_nil hbyte
      exact ⟨w, rest, x, hin, hd, hs, hp, hrec⟩
  · exact absurd rfl hne

/-- Settles O51: noise by the reverse table, a symbol by the byte and the carry in numbers. -/
theorem decSymConsumesOneByte : Obligations.DecSymConsumesOneByte := by
  refine ⟨fun s x hs hx => ?_, fun s c hs => ⟨s.dec.phase.next, s.dec.phase.next_toNat, ?_⟩,
    fun s x hs => exec_decSym_inactive hs x, fun w hop hres => decode_eq_illegal_of_reserved hop hres (by decide)⟩
  · exact exec_decSym_noise hs (not_recognized_of_not_found (revEntry_of_not_symbol hx))
  · rw [exec_decSym_symbol hs, Dec.symOut_eq, Dec.afterSym, decCarry_eq]

/-- Settles O52: the bytes emitted and the pending bits make up the bits of the recognized symbols. -/
theorem decodeStreamHasTheClosedForm : Obligations.DecodeStreamHasTheClosedForm := by
  intro u bytes s rest syms hin
  obtain ⟨t, h, hdec, hdecO, hrest⟩ := decodeStream_answers hin
  exact ⟨t, _, h, hdecO, decoded_length u syms, fun k j hk hj => decoded_getMsbD u syms hk hj,
    hdec ▸ decoded_phase u syms, hrest⟩

/-- Settles O53: a decode stream depends on its recognized symbols alone. -/
theorem decodingIgnoresNoise : Obligations.DecodingIgnoresNoise := by
  intro u bytes bytes' s s' t t' rest rest' hrec hin hin' hdecO h h'
  have hsyms : Reference.recognizedSymbols u bytes = Reference.recognizedSymbols u bytes' := congrArg (List.map _) hrec
  obtain ⟨htdec, htdecO⟩ := decodeStream_decPart hin h
  obtain ⟨htdec', htdecO'⟩ := decodeStream_decPart hin' h'
  exact ⟨by rw [htdecO, htdecO', hdecO, hsyms], by rw [htdec, htdec', hsyms]⟩

/-- Settles O54: the symbols found in the encoding are those of the bytes, in the other alphabet without 62 and 63. -/
theorem decodingAnEncodingGivesTheBytesBack : Obligations.DecodingAnEncodingGivesTheBytesBack := by
  intro u bytes out s t rest hin h hout
  obtain rfl : charsOut u 0 (streamChars u bytes) = out :=
    List.append_cancel_left ((congrArg EncPart.encO (encodeStream_encPart hin h)).symm.trans hout)
  refine ⟨fun v rest' hv => ?_, fun v rest' hv => ?_⟩
  · obtain ⟨t', h', -, hdecO, -⟩ := decodeStream_answers hv
    rw [recognizedSymbols_encoded_same, decoded_symbols] at hdecO
    exact ⟨t', h', hdecO⟩
  · intro left
    obtain ⟨t', h', -, hdecO, -⟩ := decodeStream_answers hv
    rw [recognizedSymbols_encoded_other] at hdecO
    have hlen := decoded_length (!u) left
    refine ⟨t', _, h', hdecO, hlen, fun k j hk hj => decoded_getMsbD (!u) left hk hj, fun hlost => ?_⟩
    rw [hlen]
    exact hlost.elim (fun hmem => length_filter_symbols_lt hmem (by decide))
      (fun hmem => length_filter_symbols_lt hmem (by decide))

end Sys2Proof.Machine
end

section
/-! SUPPORT. Where each register stands in the status registers (10_state.md R34 to R37), and what RD_STAT answers. -/

namespace Sys2Proof.Machine

theorem exec_rdStat (sel : BitVec 2) (s : State) :
    exec (.rdStat sel) s = .next { s with rspO := s.rspO ++ [statRead sel s] } := rfl

/-- The layout that ENC_STATUS and DEC_STATUS share, up to the widths `n` and `m` of their fields: a field of
a concatenation is read by dropping the parts below it. -/
theorem engineStatus_fields {n m : Nat} (state : BitVec n) (url : Bool) (phase : BitVec m) (carry : Byte) :
    let w := (0 : BitVec 3) ++ state ++ BitVec.ofBool url ++ phase ++ carry
    w.extractLsb' 0 8 = carry ∧ w.extractLsb' 8 m = phase ∧ w.getLsbD (8 + m) = url ∧
      w.extractLsb' (9 + m) n = state ∧ w.extractLsb' (9 + m + n) 3 = 0 := by
  intro w
  have above (start len : Nat) : w.extractLsb' (9 + m + start) len =
      ((0 : BitVec 3) ++ state).extractLsb' start len := by
    rw [BitVec.extractLsb'_append_eq_of_le (by omega), BitVec.extractLsb'_append_eq_of_le (by omega),
      BitVec.extractLsb'_append_eq_of_le (by omega), show 9 + m + start - 8 - m - 1 = start by omega]
  refine ⟨BitVec.extractLsb'_append_eq_right, ?_, ?_, ?_, ?_⟩
  · rw [BitVec.extractLsb'_append_eq_of_le le_rfl, Nat.sub_self, BitVec.extractLsb'_append_eq_right]
  · simp only [w, BitVec.getLsbD_append]; simp
  · exact (above 0 n).trans BitVec.extractLsb'_append_eq_right
  · exact (above n 3).trans BitVec.extractLsb'_append_eq_left

theorem encLine_fields (s : State) :
    (encLine s).extractLsb' 0 6 = s.enc.line ∧ (encLine s).extractLsb' 6 10 = 0 := by
  have hline : encLine s = (0 : BitVec 10) ++ s.enc.line := BitVec.setWidth_eq_append (by decide)
  rw [hline]
  exact ⟨BitVec.extractLsb'_append_eq_right, BitVec.extractLsb'_append_eq_left⟩

theorem errStatus_fields (s : State) :
    (errStatus s).getLsbD 0 = s.err.ill ∧ (errStatus s).getLsbD 1 = s.err.seqEnc ∧
      (errStatus s).getLsbD 2 = s.err.seqDec ∧ (errStatus s).extractLsb' 3 13 = 0 := by
  simp only [errStatus, BitVec.getLsbD_append]
  refine ⟨by simp, by simp, by simp, ?_⟩
  rw [BitVec.extractLsb'_append_eq_of_le (by decide), BitVec.extractLsb'_append_eq_of_le (by decide)]
  exact BitVec.extractLsb'_append_eq_left

theorem DecState.bits_getLsbD_zero (v : DecState) : v.bits.getLsbD 0 = decide (v = .active) := by cases v <;> rfl

end Sys2Proof.Machine
end

section
/-! CERTIFICATES. The obligations of 44_control.md. -/

namespace Sys2Proof.Machine

/-- Settles O56: the response is the concatenation of the fields, each read back at its place. -/
theorem rdStatRespondsWithTheStatusRegister : Obligations.RdStatRespondsWithTheStatusRegister := by
  refine ⟨fun s => ⟨⟨encStatus s, exec_rdStat 0 s, ?_⟩, ⟨encLine s, exec_rdStat 1 s, encLine_fields s⟩,
    ⟨decStatus s, exec_rdStat 2 s, ?_⟩, ⟨errStatus s, exec_rdStat 3 s, errStatus_fields s⟩⟩,
    fun w hop hres => decode_eq_illegal_of_reserved hop hres (by decide)⟩
  · obtain ⟨hcarry, hphase, hurl, hstate, hzero⟩ :=
      engineStatus_fields s.enc.state.bits s.enc.url s.enc.phase.bits s.enc.carry
    exact ⟨hcarry, hphase.trans (by cases s.enc.phase <;> rfl), hurl,
      hstate.trans (by cases s.enc.state <;> rfl), hzero⟩
  · obtain ⟨hcarry, hphase, hurl, hstate, hzero⟩ :=
      engineStatus_fields s.dec.state.bits s.dec.url s.dec.phase.bits s.dec.carry
    have hactive : (decStatus s).getLsbD 12 = s.dec.state.bits.getLsbD 0 := by
      rw [← hstate, BitVec.getLsbD_extractLsb']; rfl
    exact ⟨hcarry, hphase.trans (by cases s.dec.phase <;> rfl), hurl,
      hactive.trans s.dec.state.bits_getLsbD_zero, hzero⟩

/-- Settles O55: the only row of opcode 0 fixes all the other bits to 0. -/
theorem nopChangesNothing : Obligations.NopChangesNothing := by
  refine ⟨fun _ => rfl, fun w hop hne => decode_eq_illegal_of_reserved hop (res := 0x0FFF) (fun hlow => hne ?_)
    (by decide)⟩
  calc w = w &&& 0xF000 ||| w &&& 0x0FFF := by rw [← BitVec.and_or_distrib_left]; exact BitVec.and_allOnes.symm
    _ = 0x0000 := by rw [hop, hlow]; rfl

end Sys2Proof.Machine
end

section
/-! SUPPORT. Faults and the flags (60_exceptions.md): where a fault shows in ERR_STATUS, which commands raise one and
when, and that without a reset request no step clears `err_o`. Every step answers, since a fault is no outcome. -/

namespace Sys2Proof.Machine

/-! ### The flags as ERR_STATUS and as err_o -/

/-- The bit of ERR_STATUS that shows a fault (60_exceptions.md R182 to R184). -/
def Fault.statusBit : Fault → Word
  | .ill => 1
  | .seqEnc => 2
  | .seqDec => 4

theorem errStatus_raise (f : Fault) (s : State) : errStatus (raise f s) = errStatus s ||| f.statusBit := by
  obtain ⟨_, _, ⟨ill, seqEnc, seqDec⟩, _⟩ := s
  simp only [errStatus, raise]
  cases f with
  | ill | seqEnc | seqDec => revert ill seqEnc seqDec; decide

theorem errO_eq_true_iff {s : State} : errO s = true ↔ ∃ f, s.err.flag f = true := by
  simp only [errO, Bool.or_eq_true]
  constructor
  · rintro ((h | h) | h)
    · exact ⟨.ill, h⟩
    · exact ⟨.seqEnc, h⟩
    · exact ⟨.seqDec, h⟩
  · rintro ⟨f, h⟩
    cases f with
    | ill => exact .inl (.inl h)
    | seqEnc => exact .inl (.inr h)
    | seqDec => exact .inr h

/-! ### Which commands raise a fault -/

/-- A command raises no fault but the sequence fault of its own engine, and that one only outside ACTIVE
(60_exceptions.md R183 to R185). -/
theorem exec_err_sequence {i : Instr} {s t : State} (h : exec i s = .next t) :
    t.err = s.err ∨
    (t.err = s.err.set .seqEnc ∧ (i = .encFinal ∨ ∃ b, i = .encByte b) ∧ s.enc.state ≠ .active) ∨
    (t.err = s.err.set .seqDec ∧ (∃ x, i = .decSym x) ∧ s.dec.state ≠ .active) := by
  cases i with
  | nop | encStart _ | decStart _ | lutFwd _ _ | lutRev _ _ | rdStat _ => cases h; exact .inl rfl
  | encByte b =>
    by_cases hs : s.enc.state = .active
    · cases (exec_encByte_active hs b).symm.trans h; exact .inl rfl
    · cases (exec_encByte_inactive hs b).symm.trans h; exact .inr (.inl ⟨rfl, .inr ⟨b, rfl⟩, hs⟩)
  | encFinal =>
    by_cases hs : s.enc.state = .active
    · cases (exec_encFinal_active hs).symm.trans h; exact .inl rfl
    · cases (exec_encFinal_inactive hs).symm.trans h; exact .inr (.inl ⟨rfl, .inl rfl, hs⟩)
  | decSym x =>
    by_cases hs : s.dec.state = .active
    · cases (exec_decSym_active hs x).symm.trans h; exact .inl rfl
    · cases (exec_decSym_inactive hs x).symm.trans h; exact .inr (.inr ⟨rfl, ⟨x, rfl⟩, hs⟩)

theorem op_wordOf (op : BitVec 4) (u : Bool) (low : Byte) : CmdWord.op (wordOf op u low) = op := by
  rw [CmdWord.op, wordOf, BitVec.extractLsb'_append_eq_of_le (by decide),
    BitVec.extractLsb'_append_eq_of_le (by decide), BitVec.extractLsb'_append_eq_of_le (by decide)]
  exact BitVec.extractLsb'_eq_self

/-! ### Steps -/

theorem step_of_nothing {s : State} (hin : s.hostIn = []) : step s = .next s := by
  simp only [step, takeInput, hin, wait]

theorem step_of_reset {s : State} {rest : List HostEvent} (hin : s.hostIn = .reset :: rest) :
    step s = .next (applyReset (s.setHostIn rest)) := by
  simp only [step, takeInput, hin]

theorem step_answers (s : State) : ∃ t, step s = .next t := by
  rcases hin : s.hostIn with _ | ⟨w | _, rest⟩
  · exact ⟨s, step_of_nothing hin⟩
  · cases hw : decode w with
    | command i => rw [step_of_command hin hw]; exact exec_answers i _
    | illegal => exact ⟨_, step_of_illegal hin hw⟩
  · exact ⟨_, step_of_reset hin⟩

/-- A step takes one event from the port. -/
theorem step_hostIn {s t : State} (h : step s = .next t) : t.hostIn = s.hostIn.tail := by
  obtain ⟨hin, rfl⟩ | ⟨_, hin, rfl⟩ | ⟨_, _, _, hin, -, hx⟩ | ⟨_, _, hin, -, rfl⟩ := step_cases h
  · rw [hin, List.tail_nil]
  · rw [hin]; rfl
  · rw [hin]; exact exec_hostIn hx
  · rw [hin]; rfl

theorem steps_hostIn {k : Nat} {s t : State} (h : steps k s = .next t) : t.hostIn = s.hostIn.drop k := by
  induction k generalizing s with
  | zero => cases h; rfl
  | succ k ih =>
    obtain ⟨u, hu⟩ := step_answers s
    simp only [steps, hu] at h
    rw [ih h, step_hostIn hu, List.drop_tail]

theorem step_command_keeps_errO {s t : State} {w : Word} {rest : List HostEvent} (hin : s.hostIn = .command w :: rest)
    (h : step s = .next t) (hf : errO s = true) : errO t = true := by
  obtain ⟨f, hf⟩ := errO_eq_true_iff.1 hf
  exact errO_eq_true_iff.2 ⟨f, noCommandClearsAFlag s t w rest f hin h hf⟩

/-- Steps that take no reset request keep a recorded fault recorded (60_exceptions.md R186). -/
theorem steps_keep_errO {k : Nat} {s t : State} (hin : .reset ∉ s.hostIn.take k) (h : steps k s = .next t)
    (hf : errO s = true) : errO t = true := by
  induction k generalizing s with
  | zero => cases h; exact hf
  | succ k ih =>
    obtain ⟨u, hu⟩ := step_answers s
    simp only [steps, hu] at h
    have hrest : u.hostIn = s.hostIn.tail := step_hostIn hu
    rcases hq : s.hostIn with _ | ⟨w | _, rest⟩
    · cases (step_of_nothing hq).symm.trans hu
      exact ih (by simp [hq]) h hf
    · rw [hq, List.take_succ_cons, List.mem_cons, not_or] at hin
      rw [hq, List.tail_cons] at hrest
      exact ih (hrest ▸ hin.2) h (step_command_keeps_errO hq hu hf)
    · exact absurd (by simp [hq]) hin

end Sys2Proof.Machine
end

section
/-! CERTIFICATES. The obligations of 60_exceptions.md. -/

namespace Sys2Proof.Machine

/-- Settles O11: a word that the field table refuses decodes as ILLEGAL too, and the step raises ILL. -/
theorem illegalWordSetsOnlyIll : Obligations.IllegalWordSetsOnlyIll := by
  intro s w rest hin hw
  have hill : decode w = .illegal := hw.elim id (illegalWordsAreThoseTheFieldTableRefuses w).2
  exact ⟨step_of_illegal hin hill, errStatus_raise .ill (s.setHostIn rest)⟩

/-- Settles O12: both commands raise SEQ_ENC, which is bit 1 of ERR_STATUS. -/
theorem encoderCommandOutOfSequenceSetsOnlySeqEnc : Obligations.EncoderCommandOutOfSequenceSetsOnlySeqEnc := by
  rintro s i hs (rfl | ⟨b, rfl⟩)
  · exact ⟨exec_encFinal_inactive hs, errStatus_raise .seqEnc s⟩
  · exact ⟨exec_encByte_inactive hs b, errStatus_raise .seqEnc s⟩

/-- Settles O13: DEC_SYM raises SEQ_DEC, which is bit 2 of ERR_STATUS. -/
theorem decoderSymbolOutOfSequenceSetsOnlySeqDec : Obligations.DecoderSymbolOutOfSequenceSetsOnlySeqDec :=
  fun s x hs => ⟨exec_decSym_inactive hs x, errStatus_raise .seqDec s⟩

/-- Settles O14: an illegal word only raises ILL, and a legal one is a command's word, whose opcode is the command's. -/
theorem atMostOneFaultPerCommand : Obligations.AtMostOneFaultPerCommand := by
  intro s t w rest hin h
  cases hw : decode w with
  | illegal =>
    have hrefused : CmdWord.legal w = false := (illegalWordsAreThoseTheFieldTableRefuses w).1 hw
    cases (step_of_illegal hin hw).symm.trans h
    exact ⟨fun _ => rfl, fun hlegal => (nomatch hrefused.symm.trans hlegal), .inl rfl, fun hne => absurd rfl hne,
      fun hne => absurd rfl hne⟩
  | command i =>
    obtain rfl := decode_eq_command_iff.1 hw
    refine ⟨fun hrefused => (nomatch hrefused.symm.trans (encode_legal i)), ?_⟩
    rw [step_of_command hin hw] at h
    obtain he | ⟨he, hi, hs⟩ | ⟨he, ⟨x, rfl⟩, hs⟩ := exec_err_sequence h
    · rw [he]
      exact ⟨fun _ => rfl, .inl rfl, fun hne => absurd rfl hne, fun hne => absurd rfl hne⟩
    · rw [he]
      refine ⟨fun _ => rfl, .inr rfl, fun _ => ⟨?_, hs⟩, fun hne => absurd rfl hne⟩
      obtain rfl | ⟨b, rfl⟩ := hi
      · exact .inr (op_wordOf _ _ _)
      · exact .inl (op_wordOf _ _ _)
    · rw [he]
      exact ⟨fun _ => rfl, .inl rfl, fun hne => absurd rfl hne, fun _ => ⟨op_wordOf _ _ _, hs⟩⟩

/-- Settles O16: no command clears a flag, and reset clears all of them. -/
theorem errOutputIsTheStickyOrOfTheFlags : Obligations.ErrOutputIsTheStickyOrOfTheFlags := by
  refine ⟨fun _ => rfl, fun s t w rest hin h => step_command_keeps_errO hin h, fun s t rest hin h => ?_⟩
  cases (step_of_reset hin).symm.trans h
  rfl

/-- Settles O17: the steps behind any point of the run take no reset request, so a fault recorded there would still be
recorded at the end. -/
theorem noFaultAtTheEndMeansNoFaultAnywhere : Obligations.NoFaultAtTheEndMeansNoFaultAnywhere := by
  intro k j s t v hin hjk ht hv hend
  obtain ⟨m, rfl⟩ := Nat.exists_eq_add_of_le hjk
  have hlater : steps m v = .next t := (steps_add hv).symm.trans ht
  have hnoreset : .reset ∉ v.hostIn.take m := by
    rw [steps_hostIn hv, List.take_drop]
    exact fun hmem => hin (List.mem_of_mem_drop hmem)
  exact Bool.eq_false_of_not_eq_true fun hfault =>
    nomatch hend.symm.trans (steps_keep_errO hnoreset hlater hfault)

/-- Settles O18: in an open stream the commands write their engine and its output alone, and a query only responds. -/
theorem noDataByteCausesAFault : Obligations.NoDataByteCausesAFault := by
  intro s x
  exact ⟨fun hs => ⟨_, exec_encByte_active hs x, rfl⟩, fun hs => ⟨_, exec_decSym_active hs x, rfl⟩,
    fun hs hx => exec_decSym_noise hs (not_recognized_of_not_found (revEntry_of_not_symbol hx)),
    fun u ix => ⟨_, exec_lutFwd u ix s, rfl⟩, fun u => ⟨_, exec_lutRev u x s, rfl⟩⟩

/-- Settles O19, by the next event presented: nothing, a command word, legal or not, or a reset request. -/
theorem everyStepAnswersANextState : Obligations.EveryStepAnswersANextState :=
  step_answers

end Sys2Proof.Machine
end

section
/-! CERTIFICATES. The obligations of 70_reset_and_hazards.md. -/

namespace Sys2Proof.Machine

/-- Settles O22: the step on a reset request is `applyReset`, which writes every register and no output stream; at
power-on the core holds the reset state itself. -/
theorem resetRequestRestoresEveryRegister : Obligations.ResetRequestRestoresEveryRegister := by
  refine ⟨fun s rest hin => ⟨_, step_of_reset hin, ?_⟩, rfl⟩
  have herr : errO (applyReset (s.setHostIn rest)) = false := rfl
  exact ⟨applyReset_enc _, applyReset_dec _, applyReset_err _, herr,
    applyReset_encO _, applyReset_decO _, applyReset_rspO _⟩

/-- Settles O24: each START writes every register of its own engine and nothing else (`encStartOpensAStream`,
`decStartOpensAStream`). -/
theorem startIsResetButForActiveAndAlphabet : Obligations.StartIsResetButForActiveAndAlphabet := by
  obtain ⟨henc, -⟩ := encStartOpensAStream
  obtain ⟨hdec, -⟩ := decStartOpensAStream
  exact fun s u => ⟨⟨_, henc s u, rfl, rfl, rfl⟩, ⟨_, hdec s u, rfl, rfl, rfl⟩⟩

end Sys2Proof.Machine
end

section
/-! CERTIFICATES. The obligations about the form of a step (the model's choices, logs 1 to 3). -/

namespace Sys2Proof.Machine

/-- Settles O21, by the case analysis of a step: each branch hands on the tail of what is presented, and neither a
command nor a reset writes `hostIn`. -/
theorem stepTakesExactlyOneEvent : Obligations.StepTakesExactlyOneEvent :=
  fun _ _ => step_hostIn

/-- Settles O20: with no event to take, the step is the one that leaves the state as it is. -/
theorem stepWithNothingPresentedWaits : Obligations.StepWithNothingPresentedWaits :=
  fun _ => step_of_nothing

end Sys2Proof.Machine
end
